-- ==== Sys2Proof/Word.lean ====
section
/-! DEFINITION. The word types of the block: 8-bit bytes of memory, 32-bit registers, the 128-bit value register. -/

namespace Sys2Proof

/-- One byte of memory, "8-bit units" (spec/20_memory.md R70). -/
abbrev Byte := BitVec 8

/-- One register of the register file, and one command word (spec/10_state.md R31, spec/30_encoding.md R110). -/
abbrev Word := BitVec 32

/-- The scalar value register `V` seen whole (spec/10_state.md R32). -/
abbrev Value := BitVec 128

/-- The number of addressable bytes, `MEM_SIZE` (spec/00_scope.md section 5). -/
abbrev memSize : Nat := 2 ^ 32

end Sys2Proof
end

