-- ==== Sys2Proof/Syntax.lean ====
section
/-! DEFINITION. The command set: the 48 commands of spec/30_encoding.md R117 as one inductive, and the names their fields take. -/

namespace Sys2Proof

/-- The endianness tag of a command, its field `END` (spec/30_encoding.md R113). -/
inductive Tag where
  | be
  | le
  | ne
deriving DecidableEq, Repr

/-- The effective order a tag resolves to (spec/20_memory.md R75). -/
inductive Order where
  | big
  | little
deriving DecidableEq, Repr

/-- The ten value kinds (spec/00_scope.md R4, spec/30_encoding.md R114). -/
inductive Kind where
  | u16
  | i16
  | u32
  | i32
  | u64
  | i64
  | u128
  | i128
  | f32
  | f64
deriving DecidableEq, Repr

/-- The four result types of the variable-width commands (spec/42_variable_width.md R220). -/
inductive WideKind where
  | u64
  | i64
  | u128
  | i128
deriving DecidableEq, Repr

/-- The six operations, the field `OP` (spec/30_encoding.md R112). -/
inductive Op where
  | read
  | write
  | readv
  | writev
  | readInto
  | writeInto
deriving DecidableEq, Repr

/-- A decoded command `(op, kind, end, n)`, what `Decode` of spec/30_encoding.md R116 returns for a legal word. -/
structure Command where
  op : Op
  kind : Kind
  tag : Tag
  n : Nat
deriving DecidableEq, Repr

/-- The 48 commands (spec/30_encoding.md R117), one constructor per row of the opcode table. `tag` is the field `END`, `n` the
byte count `N` of a variable-width command. -/
inductive Instr where
  /-- `read_u16`, rule R185. -/
  | readU16 (tag : Tag)
  /-- `read_i16`, rule R186. -/
  | readI16 (tag : Tag)
  /-- `read_u32`, rule R187. -/
  | readU32 (tag : Tag)
  /-- `read_i32`, rule R188. -/
  | readI32 (tag : Tag)
  /-- `read_u64`, rule R189. -/
  | readU64 (tag : Tag)
  /-- `read_i64`, rule R190. -/
  | readI64 (tag : Tag)
  /-- `read_u128`, rule R191. -/
  | readU128 (tag : Tag)
  /-- `read_i128`, rule R192. -/
  | readI128 (tag : Tag)
  /-- `read_f32`, rule R193. -/
  | readF32 (tag : Tag)
  /-- `read_f64`, rule R194. -/
  | readF64 (tag : Tag)
  /-- `write_u16`, rule R195. -/
  | writeU16 (tag : Tag)
  /-- `write_i16`, rule R196. -/
  | writeI16 (tag : Tag)
  /-- `write_u32`, rule R197. -/
  | writeU32 (tag : Tag)
  /-- `write_i32`, rule R198. -/
  | writeI32 (tag : Tag)
  /-- `write_u64`, rule R199. -/
  | writeU64 (tag : Tag)
  /-- `write_i64`, rule R200. -/
  | writeI64 (tag : Tag)
  /-- `write_u128`, rule R201. -/
  | writeU128 (tag : Tag)
  /-- `write_i128`, rule R202. -/
  | writeI128 (tag : Tag)
  /-- `write_f32`, rule R203. -/
  | writeF32 (tag : Tag)
  /-- `write_f64`, rule R204. -/
  | writeF64 (tag : Tag)
  /-- `read_uint`, rule R225. -/
  | readUint (tag : Tag) (n : Nat)
  /-- `read_int`, rule R226. -/
  | readInt (tag : Tag) (n : Nat)
  /-- `read_uint128`, rule R227. -/
  | readUint128 (tag : Tag) (n : Nat)
  /-- `read_int128`, rule R228. -/
  | readInt128 (tag : Tag) (n : Nat)
  /-- `write_uint`, rule R229. -/
  | writeUint (tag : Tag) (n : Nat)
  /-- `write_int`, rule R230. -/
  | writeInt (tag : Tag) (n : Nat)
  /-- `write_uint128`, rule R231. -/
  | writeUint128 (tag : Tag) (n : Nat)
  /-- `write_int128`, rule R232. -/
  | writeInt128 (tag : Tag) (n : Nat)
  /-- `read_u16_into`, rule R260. -/
  | readU16Into (tag : Tag)
  /-- `read_i16_into`, rule R261. -/
  | readI16Into (tag : Tag)
  /-- `read_u32_into`, rule R262. -/
  | readU32Into (tag : Tag)
  /-- `read_i32_into`, rule R263. -/
  | readI32Into (tag : Tag)
  /-- `read_u64_into`, rule R264. -/
  | readU64Into (tag : Tag)
  /-- `read_i64_into`, rule R265. -/
  | readI64Into (tag : Tag)
  /-- `read_u128_into`, rule R266. -/
  | readU128Into (tag : Tag)
  /-- `read_i128_into`, rule R267. -/
  | readI128Into (tag : Tag)
  /-- `read_f32_into`, rule R268. -/
  | readF32Into (tag : Tag)
  /-- `read_f64_into`, rule R269. -/
  | readF64Into (tag : Tag)
  /-- `write_u16_into`, rule R270. -/
  | writeU16Into (tag : Tag)
  /-- `write_i16_into`, rule R271. -/
  | writeI16Into (tag : Tag)
  /-- `write_u32_into`, rule R272. -/
  | writeU32Into (tag : Tag)
  /-- `write_i32_into`, rule R273. -/
  | writeI32Into (tag : Tag)
  /-- `write_u64_into`, rule R274. -/
  | writeU64Into (tag : Tag)
  /-- `write_i64_into`, rule R275. -/
  | writeI64Into (tag : Tag)
  /-- `write_u128_into`, rule R276. -/
  | writeU128Into (tag : Tag)
  /-- `write_i128_into`, rule R277. -/
  | writeI128Into (tag : Tag)
  /-- `write_f32_into`, rule R278. -/
  | writeF32Into (tag : Tag)
  /-- `write_f64_into`, rule R279. -/
  | writeF64Into (tag : Tag)
deriving DecidableEq, Repr

end Sys2Proof
end

