-- ==== Sys2Proof/WellFormed.lean ====
section
/-! DEFINITION. Which terms of `Instr` are commands: the byte count of a variable-width command fits the five bits of the field `N`. -/

namespace Sys2Proof

/-- The field `N` has five bits (spec/30_encoding.md R111, R115). A count that the operation does not support (0, or above the type's
size) is still a command: it decodes, and then faults with `E_WIDTH`. -/
abbrev countFits (n : Nat) : Prop := n < 32

/-- The well-formed commands. Only the eight variable-width ones have a field that a term can get wrong. -/
def Instr.wellFormed (i : Instr) : Bool :=
  match i with
  | .readU16 _ => true
  | .readI16 _ => true
  | .readU32 _ => true
  | .readI32 _ => true
  | .readU64 _ => true
  | .readI64 _ => true
  | .readU128 _ => true
  | .readI128 _ => true
  | .readF32 _ => true
  | .readF64 _ => true
  | .writeU16 _ => true
  | .writeI16 _ => true
  | .writeU32 _ => true
  | .writeI32 _ => true
  | .writeU64 _ => true
  | .writeI64 _ => true
  | .writeU128 _ => true
  | .writeI128 _ => true
  | .writeF32 _ => true
  | .writeF64 _ => true
  | .readUint _ n => decide (countFits n)
  | .readInt _ n => decide (countFits n)
  | .readUint128 _ n => decide (countFits n)
  | .readInt128 _ n => decide (countFits n)
  | .writeUint _ n => decide (countFits n)
  | .writeInt _ n => decide (countFits n)
  | .writeUint128 _ n => decide (countFits n)
  | .writeInt128 _ n => decide (countFits n)
  | .readU16Into _ => true
  | .readI16Into _ => true
  | .readU32Into _ => true
  | .readI32Into _ => true
  | .readU64Into _ => true
  | .readI64Into _ => true
  | .readU128Into _ => true
  | .readI128Into _ => true
  | .readF32Into _ => true
  | .readF64Into _ => true
  | .writeU16Into _ => true
  | .writeI16Into _ => true
  | .writeU32Into _ => true
  | .writeI32Into _ => true
  | .writeU64Into _ => true
  | .writeI64Into _ => true
  | .writeU128Into _ => true
  | .writeI128Into _ => true
  | .writeF32Into _ => true
  | .writeF64Into _ => true

end Sys2Proof
end

