-- ==== Sys2Proof/Decode.lean ====
section
/-! DEFINITION. Decoding a command word, total on all 2^32 words and rejecting by name, and encoding a command. Both are written from
spec/30_encoding.md (R111 to R118). -/

namespace Sys2Proof

/-- Why a word is no command. The hardware does not tell these apart: each is `Illegal` (spec/30_encoding.md R116, R118). -/
inductive DecodeError where
  /-- `RES0` or `RES1` is not 0. -/
  | reservedBits
  /-- `OP` is 0 or 7 to 15. -/
  | badOp
  /-- `END` is 3. -/
  | badTag
  /-- `KIND` is 8 or 11 to 15. -/
  | badKind
  /-- READV or WRITEV with a kind that is not u64, i64, u128 or i128. -/
  | kindNotTaken
  /-- `N` is not 0 in a command that has no byte count. -/
  | strayCount
deriving DecidableEq, Repr

/-! The fields of format `CMD32` (R111). -/

/-- `OP`, bits 3:0. -/
def fieldOp (w : Word) : Nat := (w.extractLsb' 0 4).toNat

/-- `KIND`, bits 7:4. -/
def fieldKind (w : Word) : Nat := (w.extractLsb' 4 4).toNat

/-- `END`, bits 9:8. -/
def fieldEnd (w : Word) : Nat := (w.extractLsb' 8 2).toNat

/-- `RES0`, bits 15:10. -/
def fieldRes0 (w : Word) : Nat := (w.extractLsb' 10 6).toNat

/-- `N`, bits 20:16, an unsigned number: not sign-extended, not scaled, not shifted (R115). -/
def fieldN (w : Word) : Nat := (w.extractLsb' 16 5).toNat

/-- `RES1`, bits 31:21. -/
def fieldRes1 (w : Word) : Nat := (w.extractLsb' 21 11).toNat

/-! The codes of the fields (R112, R113, R114), both ways. -/

/-- The code of an operation (R112). -/
def Op.code (o : Op) : Nat :=
  match o with
  | .read => 1
  | .write => 2
  | .readv => 3
  | .writev => 4
  | .readInto => 5
  | .writeInto => 6

/-- The operation of a code; 0 and 7 to 15 are illegal (R112). -/
def opOf (c : Nat) : Option Op :=
  match c with
  | 1 => some .read
  | 2 => some .write
  | 3 => some .readv
  | 4 => some .writev
  | 5 => some .readInto
  | 6 => some .writeInto
  | _ => none

/-- The code of a tag (R113). -/
def Tag.code (t : Tag) : Nat :=
  match t with
  | .be => 0
  | .le => 1
  | .ne => 2

/-- The tag of a code; 3 is illegal (R113). -/
def tagOf (c : Nat) : Option Tag :=
  match c with
  | 0 => some .be
  | 1 => some .le
  | 2 => some .ne
  | _ => none

/-- The code of a kind (R114). -/
def Kind.code (k : Kind) : Nat :=
  match k with
  | .u16 => 0
  | .u32 => 1
  | .u64 => 2
  | .u128 => 3
  | .i16 => 4
  | .i32 => 5
  | .i64 => 6
  | .i128 => 7
  | .f32 => 9
  | .f64 => 10

/-- The kind of a code; 8 and 11 to 15 are illegal (R114). -/
def kindOf (c : Nat) : Option Kind :=
  match c with
  | 0 => some .u16
  | 1 => some .u32
  | 2 => some .u64
  | 3 => some .u128
  | 4 => some .i16
  | 5 => some .i32
  | 6 => some .i64
  | 7 => some .i128
  | 9 => some .f32
  | 10 => some .f64
  | _ => none

/-- The kind a variable-width result type names in the field `KIND` (R114). -/
def WideKind.kind (k : WideKind) : Kind :=
  match k with
  | .u64 => .u64
  | .i64 => .i64
  | .u128 => .u128
  | .i128 => .i128

/-- READV and WRITEV take only u64, i64, u128 and i128 (R114). -/
def wideOf (k : Kind) : Option WideKind :=
  match k with
  | .u64 => some .u64
  | .i64 => some .i64
  | .u128 => some .u128
  | .i128 => some .i128
  | .u16 | .i16 | .u32 | .i32 | .f32 | .f64 => none

/-! The rows of R117, operation by operation. -/

/-- The ten fixed-width reads: OP 1 (R117). -/
def fixedRead (k : Kind) (t : Tag) : Instr :=
  match k with
  | .u16 => .readU16 t
  | .i16 => .readI16 t
  | .u32 => .readU32 t
  | .i32 => .readI32 t
  | .u64 => .readU64 t
  | .i64 => .readI64 t
  | .u128 => .readU128 t
  | .i128 => .readI128 t
  | .f32 => .readF32 t
  | .f64 => .readF64 t

/-- The ten fixed-width writes: OP 2 (R117). -/
def fixedWrite (k : Kind) (t : Tag) : Instr :=
  match k with
  | .u16 => .writeU16 t
  | .i16 => .writeI16 t
  | .u32 => .writeU32 t
  | .i32 => .writeI32 t
  | .u64 => .writeU64 t
  | .i64 => .writeI64 t
  | .u128 => .writeU128 t
  | .i128 => .writeI128 t
  | .f32 => .writeF32 t
  | .f64 => .writeF64 t

/-- The four variable-width reads: OP 3 (R117). -/
def variableRead (k : WideKind) (t : Tag) (n : Nat) : Instr :=
  match k with
  | .u64 => .readUint t n
  | .i64 => .readInt t n
  | .u128 => .readUint128 t n
  | .i128 => .readInt128 t n

/-- The four variable-width writes: OP 4 (R117). -/
def variableWrite (k : WideKind) (t : Tag) (n : Nat) : Instr :=
  match k with
  | .u64 => .writeUint t n
  | .i64 => .writeInt t n
  | .u128 => .writeUint128 t n
  | .i128 => .writeInt128 t n

/-- The ten bulk reads: OP 5 (R117). -/
def bulkRead (k : Kind) (t : Tag) : Instr :=
  match k with
  | .u16 => .readU16Into t
  | .i16 => .readI16Into t
  | .u32 => .readU32Into t
  | .i32 => .readI32Into t
  | .u64 => .readU64Into t
  | .i64 => .readI64Into t
  | .u128 => .readU128Into t
  | .i128 => .readI128Into t
  | .f32 => .readF32Into t
  | .f64 => .readF64Into t

/-- The ten bulk writes: OP 6 (R117). -/
def bulkWrite (k : Kind) (t : Tag) : Instr :=
  match k with
  | .u16 => .writeU16Into t
  | .i16 => .writeI16Into t
  | .u32 => .writeU32Into t
  | .i32 => .writeI32Into t
  | .u64 => .writeU64Into t
  | .i64 => .writeI64Into t
  | .u128 => .writeU128Into t
  | .i128 => .writeI128Into t
  | .f32 => .writeF32Into t
  | .f64 => .writeF64Into t

/-- The command of a row of R117 with its tag and count, after the fields have been read: a variable-width operation needs a kind it
takes, every other operation needs `N = 0` (R115, R116). -/
def Command.instr (c : Command) : Except DecodeError Instr :=
  match c.op with
  | .readv =>
    match wideOf c.kind with
    | some k => .ok (variableRead k c.tag c.n)
    | none => .error .kindNotTaken
  | .writev =>
    match wideOf c.kind with
    | some k => .ok (variableWrite k c.tag c.n)
    | none => .error .kindNotTaken
  | .read => if c.n = 0 then .ok (fixedRead c.kind c.tag) else .error .strayCount
  | .write => if c.n = 0 then .ok (fixedWrite c.kind c.tag) else .error .strayCount
  | .readInto => if c.n = 0 then .ok (bulkRead c.kind c.tag) else .error .strayCount
  | .writeInto => if c.n = 0 then .ok (bulkWrite c.kind c.tag) else .error .strayCount

/-- `Decode(word)` (R116). -/
def decode (w : Word) : Except DecodeError Instr :=
  if fieldRes0 w ≠ 0 ∨ fieldRes1 w ≠ 0 then .error .reservedBits
  else
    match opOf (fieldOp w) with
    | none => .error .badOp
    | some op =>
      match tagOf (fieldEnd w) with
      | none => .error .badTag
      | some tag =>
        match kindOf (fieldKind w) with
        | none => .error .badKind
        | some kind => Command.instr { op := op, kind := kind, tag := tag, n := fieldN w }

/-- The instruction whose bits are `w`, numbered as the opcode table numbers them: the bits above `nbits` are 0. A command is one
32-bit word, the data of a register write, so there is no byte order to lay it out in (R110, spec/20_memory.md R80). -/
def tableWord (nbits w : Nat) : Word := BitVec.ofNat 32 (w % 2 ^ nbits)

/-- What the decoder reads from a word of the opcode table; `none` where it refuses. -/
def decodeTableWord (nbits w : Nat) : Option Instr :=
  match decode (tableWord nbits w) with
  | .ok i => some i
  | .error _ => none

/-- The fields of a command, by its row of R117. -/
def Instr.command (i : Instr) : Command :=
  match i with
  | .readU16 t => { op := .read, kind := .u16, tag := t, n := 0 }
  | .readI16 t => { op := .read, kind := .i16, tag := t, n := 0 }
  | .readU32 t => { op := .read, kind := .u32, tag := t, n := 0 }
  | .readI32 t => { op := .read, kind := .i32, tag := t, n := 0 }
  | .readU64 t => { op := .read, kind := .u64, tag := t, n := 0 }
  | .readI64 t => { op := .read, kind := .i64, tag := t, n := 0 }
  | .readU128 t => { op := .read, kind := .u128, tag := t, n := 0 }
  | .readI128 t => { op := .read, kind := .i128, tag := t, n := 0 }
  | .readF32 t => { op := .read, kind := .f32, tag := t, n := 0 }
  | .readF64 t => { op := .read, kind := .f64, tag := t, n := 0 }
  | .writeU16 t => { op := .write, kind := .u16, tag := t, n := 0 }
  | .writeI16 t => { op := .write, kind := .i16, tag := t, n := 0 }
  | .writeU32 t => { op := .write, kind := .u32, tag := t, n := 0 }
  | .writeI32 t => { op := .write, kind := .i32, tag := t, n := 0 }
  | .writeU64 t => { op := .write, kind := .u64, tag := t, n := 0 }
  | .writeI64 t => { op := .write, kind := .i64, tag := t, n := 0 }
  | .writeU128 t => { op := .write, kind := .u128, tag := t, n := 0 }
  | .writeI128 t => { op := .write, kind := .i128, tag := t, n := 0 }
  | .writeF32 t => { op := .write, kind := .f32, tag := t, n := 0 }
  | .writeF64 t => { op := .write, kind := .f64, tag := t, n := 0 }
  | .readUint t n => { op := .readv, kind := .u64, tag := t, n := n }
  | .readInt t n => { op := .readv, kind := .i64, tag := t, n := n }
  | .readUint128 t n => { op := .readv, kind := .u128, tag := t, n := n }
  | .readInt128 t n => { op := .readv, kind := .i128, tag := t, n := n }
  | .writeUint t n => { op := .writev, kind := .u64, tag := t, n := n }
  | .writeInt t n => { op := .writev, kind := .i64, tag := t, n := n }
  | .writeUint128 t n => { op := .writev, kind := .u128, tag := t, n := n }
  | .writeInt128 t n => { op := .writev, kind := .i128, tag := t, n := n }
  | .readU16Into t => { op := .readInto, kind := .u16, tag := t, n := 0 }
  | .readI16Into t => { op := .readInto, kind := .i16, tag := t, n := 0 }
  | .readU32Into t => { op := .readInto, kind := .u32, tag := t, n := 0 }
  | .readI32Into t => { op := .readInto, kind := .i32, tag := t, n := 0 }
  | .readU64Into t => { op := .readInto, kind := .u64, tag := t, n := 0 }
  | .readI64Into t => { op := .readInto, kind := .i64, tag := t, n := 0 }
  | .readU128Into t => { op := .readInto, kind := .u128, tag := t, n := 0 }
  | .readI128Into t => { op := .readInto, kind := .i128, tag := t, n := 0 }
  | .readF32Into t => { op := .readInto, kind := .f32, tag := t, n := 0 }
  | .readF64Into t => { op := .readInto, kind := .f64, tag := t, n := 0 }
  | .writeU16Into t => { op := .writeInto, kind := .u16, tag := t, n := 0 }
  | .writeI16Into t => { op := .writeInto, kind := .i16, tag := t, n := 0 }
  | .writeU32Into t => { op := .writeInto, kind := .u32, tag := t, n := 0 }
  | .writeI32Into t => { op := .writeInto, kind := .i32, tag := t, n := 0 }
  | .writeU64Into t => { op := .writeInto, kind := .u64, tag := t, n := 0 }
  | .writeI64Into t => { op := .writeInto, kind := .i64, tag := t, n := 0 }
  | .writeU128Into t => { op := .writeInto, kind := .u128, tag := t, n := 0 }
  | .writeI128Into t => { op := .writeInto, kind := .i128, tag := t, n := 0 }
  | .writeF32Into t => { op := .writeInto, kind := .f32, tag := t, n := 0 }
  | .writeF64Into t => { op := .writeInto, kind := .f64, tag := t, n := 0 }

/-- The word of a command, `OP | (KIND << 4) | (END << 8) | (N << 16)` (R111). -/
def encode (i : Instr) : Word :=
  BitVec.ofNat 32 i.command.op.code ||| (BitVec.ofNat 32 i.command.kind.code <<< 4)
    ||| (BitVec.ofNat 32 i.command.tag.code <<< 8) ||| (BitVec.ofNat 32 i.command.n <<< 16)

end Sys2Proof
end

