-- ==== Sys2Proof/Config.lean ====
section
/-! DEFINITION. What an instance of the block fixes, and the free values of the model. -/

namespace Sys2Proof

/-- `NATIVE_BIG` (spec/00_scope.md R3): what the tag native resolves to. The spec leaves it open; no proof can learn its value,
so every theorem holds for both builds. Log entry 1. Safe. -/
opaque Config.nativeBig : Bool

/-- For the `n`-th command that an outside reset cuts, whether the destination byte at address `a` still holds its old value
(spec/70_reset_and_hazards.md R343: old or new, "which, per byte, is unspecified"). A free value. Log entry 6. Safe. -/
opaque Config.resetKeepsOld : (n a : Nat) → Bool

end Sys2Proof
end

