-- ==== Sys2Proof/Machine/State.lean ====
section
/-! DEFINITION. The machine's state, plain data: the ten registers of spec/10_state.md R31, the memory of spec/20_memory.md R70, and the
model's own fields for the host that drives the block. -/

namespace Sys2Proof.Machine

/-- The seven fault causes (spec/60_exceptions.md R291). A cause is latched in `STATUS`; it does not stop the model. -/
inductive FaultCode where
  /-- `E_ILLEGAL`, code 1. -/
  | illegal
  /-- `E_WIDTH`, code 2. -/
  | width
  /-- `E_RANGE`, code 3. -/
  | range
  /-- `E_SHORT`, code 4. -/
  | short
  /-- `E_LEN`, code 5. -/
  | len
  /-- `E_OVERLAP`, code 6. -/
  | overlap
  /-- `E_FIT`, code 7. -/
  | fit
deriving DecidableEq, Repr

/-- `STATUS` as its two fields (spec/10_state.md R35). Bits 3:1 and 31:8 are hardwired 0 and have no storage: the 32-bit word is
`State.statusWord`. Log entry 11. -/
structure Status where
  /-- `STATUS.FAULT`, bit 0. -/
  fault : Bool
  /-- `STATUS.ERR`, bits 7:4. -/
  err : BitVec 4
deriving DecidableEq, Repr

/-- The ten registers by name (spec/10_state.md R31). -/
inductive Reg where
  | cmd
  | status
  | bufAddr
  | bufLen
  | slAddr
  | slCount
  | v0
  | v1
  | v2
  | v3
deriving DecidableEq, Repr

/-- The size of a register access. Only 32-bit accesses are part of the interface (spec/40_command_execution.md R156). -/
inductive AccessSize where
  | byte
  | half
  | word
deriving DecidableEq, Repr

/-- One access of the host (spec/30_encoding.md R120, spec/40_command_execution.md R159, spec/70_reset_and_hazards.md R351). -/
inductive HostAccess where
  /-- A register read at an offset of the register window (R150). -/
  | regRead (size : AccessSize) (offset : Nat)
  /-- A register write (R151); at offset 0 it executes a command. -/
  | regWrite (size : AccessSize) (offset : Nat) (data : Word)
  /-- The reset input is asserted (spec/70_reset_and_hazards.md R340). -/
  | reset
  /-- The host reads a byte of memory by its own means, between commands (R351, liberty L8). Log entry 5. -/
  | memRead (addr : Nat)
  /-- The host writes a byte of memory by its own means, between commands (R351, liberty L8). Log entry 5. -/
  | memWrite (addr : Nat) (data : Byte)
  /-- A write to `CMD` whose command is cut by a reset from outside (spec/70_reset_and_hazards.md R343). Log entry 6. -/
  | cutCommand (data : Word)
deriving DecidableEq, Repr

/-- What a read of the host returned. -/
inductive Response where
  | register (data : Word)
  | memory (data : Byte)
deriving DecidableEq, Repr

/-- Memory as (address, byte) pairs in one canonical form (`Memory.wf`): addresses strictly rising and below 2^32, no entry equal to
what an unlisted address reads as. -/
abbrev Memory := List Host.Cell

/-- The state. The first ten fields are the architectural state of the block (spec/10_state.md R30, R31); `mem` is the memory it works
against (spec/20_memory.md R70); the last three are the model's own. -/
structure State where
  /-- `CMD`: the last command word accepted (R36). -/
  cmd : Word
  /-- `STATUS`: the fault latch and cause (R35). -/
  status : Status
  /-- `BUF_ADDR`: address of byte 0 of the buffer view (R37). -/
  bufAddr : Word
  /-- `BUF_LEN`: length of the buffer view in bytes (R38). -/
  bufLen : Word
  /-- `SL_ADDR`: address of element 0 of the value slice (R39). -/
  slAddr : Word
  /-- `SL_COUNT`: number of elements of the value slice (R40). -/
  slCount : Word
  /-- `V0`: bits 31:0 of `V` (R32, R41). -/
  v0 : Word
  /-- `V1`: bits 63:32 of `V`. -/
  v1 : Word
  /-- `V2`: bits 95:64 of `V`. -/
  v2 : Word
  /-- `V3`: bits 127:96 of `V`. -/
  v3 : Word
  /-- The memory (spec/20_memory.md R70). -/
  mem : Memory
  /-- The MODEL's own: the host's accesses not yet served, oldest first. Log entry 2. -/
  pending : List HostAccess
  /-- The MODEL's own: what the host's reads have returned, oldest first. Log entry 3. -/
  responses : List Response
  /-- The MODEL's own: how many commands an outside reset has cut, the first argument of `Config.resetKeepsOld`. Log entry 6. -/
  cuts : Nat
deriving DecidableEq, Repr

/-- Why the machine stops with a fault. No command does: a command's fault is latched in `STATUS` and is a next state
(spec/60_exceptions.md R300). -/
inductive Fault where
  /-- Raised by a host memory access (`HostAccess.memRead`, `HostAccess.memWrite`) at an address of 2^32 or more, which does not exist
  (spec/20_memory.md R70). Safe. Log entry 5. -/
  | outsideMemory
deriving DecidableEq, Repr

/-- Why the model does not take an access. -/
inductive Refusal where
  /-- Raised by `exec` for an instruction that has no meaning yet. Safe. No instruction is in this case. -/
  | notModelled (mnemonic : String)
  /-- Raised by a register access that is not 32 bits wide or whose offset is not a multiple of 4: "the spec gives them no meaning, and
  a model refuses them" (spec/40_command_execution.md R156). Safe. Log entry 9. -/
  | registerAccess
deriving DecidableEq, Repr

/-- The machine right after reset (spec/10_state.md R45, spec/70_reset_and_hazards.md R340): every register 0. Memory lists nothing
(log entry 4), no access is pending, nothing has been read, no command has been cut (log entries 2, 3, 6). -/
def State.reset : State where
  cmd := 0
  status := { fault := false, err := 0 }
  bufAddr := 0
  bufLen := 0
  slAddr := 0
  slCount := 0
  v0 := 0
  v1 := 0
  v2 := 0
  v3 := 0
  mem := []
  pending := []
  responses := []
  cuts := 0

end Sys2Proof.Machine
end

