-- ==== Sys2Proof/Machine/Flags.lean ====
section
/-! DEFINITION. The flags: the fields of `STATUS` (spec/10_state.md R35), the codes of the fault causes (spec/60_exceptions.md R291) and
the `fault` line (R304). The block has no other flag. -/

namespace Sys2Proof.Machine

/-- The code of a cause, the value latched in `STATUS.ERR` (spec/60_exceptions.md R291). -/
def FaultCode.code (c : FaultCode) : BitVec 4 :=
  match c with
  | .illegal => 1
  | .width => 2
  | .range => 3
  | .short => 4
  | .len => 5
  | .overlap => 6
  | .fit => 7

/-- `STATUS` with no fault latched, its reset value (spec/10_state.md R35, R45). -/
def Status.clear : Status := { fault := false, err := 0 }

/-- `STATUS` after a fault: `ERR` holds the code and `FAULT` is 1 (spec/60_exceptions.md R300). -/
def Status.latched (c : FaultCode) : Status := { fault := true, err := c.code }

/-- The 32-bit word a read of `STATUS` returns: `FAULT` in bit 0, `ERR` in bits 7:4, the rest hardwired 0 (spec/10_state.md R35). -/
def Status.word (st : Status) : Word := (st.err.setWidth 32 <<< 4) ||| (BitVec.ofBool st.fault).setWidth 32

/-- The register `STATUS` as a word. -/
def State.statusWord (s : State) : Word := s.status.word

/-- The block is frozen (spec/40_command_execution.md R152). -/
def State.frozen (s : State) : Bool := s.status.fault

/-- The output line `fault`, "equal at all times to STATUS.FAULT" (spec/60_exceptions.md R304). -/
def State.faultLine (s : State) : Bool := s.status.fault

end Sys2Proof.Machine
end

