-- ==== Sys2Proof/Machine/Ops.lean ====
section
/-! DEFINITION. The named operations over memory and registers, and a fault's entry and its only way out. -/

namespace Sys2Proof.Machine

/-! Memory (spec/20_memory.md section 1). -/

/-- What an address that memory does not list reads as. The spec gives memory no initial contents (spec/70_reset_and_hazards.md R341).
DESIGN CHOICE, unsafe: log entry 4. -/
def Memory.unlisted : Byte := 0

/-- `Mem[a]` (R70). -/
def Memory.read (m : Memory) (a : Nat) : Byte :=
  match m with
  | [] => Memory.unlisted
  | (k, b) :: rest => if k = a then b else Memory.read rest a

/-- Memory without an entry for `a`. -/
def Memory.erase (m : Memory) (a : Nat) : Memory := m.filter (fun c => c.1 != a)

/-- Memory with an entry for `a` before the first greater address. -/
def Memory.insert (m : Memory) (a : Nat) (b : Byte) : Memory :=
  match m with
  | [] => [(a, b)]
  | (k, c) :: rest => if a < k then (a, b) :: (k, c) :: rest else (k, c) :: Memory.insert rest a b

/-- `Mem[a] <- b` (R70, R83: the unit of atomicity is the byte). Writing what an unlisted address reads as removes the entry. -/
def Memory.write (m : Memory) (a : Nat) (b : Byte) : Memory :=
  if b = Memory.unlisted then Memory.erase m a else Memory.insert (Memory.erase m a) a b

/-- The canonical form of memory. -/
abbrev Memory.wf (m : Memory) : Prop :=
  List.Pairwise (fun c d => c.1 < d.1) m ∧ ∀ c ∈ m, c.2 ≠ Memory.unlisted ∧ c.1 < memSize

/-- `MemRead(addr, n)`: `n` single byte reads in ascending address (R71). -/
def Memory.readBytes (m : Memory) (addr n : Nat) : List Byte :=
  match n with
  | 0 => []
  | k + 1 => m.read addr :: Memory.readBytes m (addr + 1) k

/-- `MemWrite(addr, n, b)`, `n` the length of `bytes`: single byte writes in ascending address (R72). -/
def Memory.writeBytes (m : Memory) (addr : Nat) (bytes : List Byte) : Memory :=
  match bytes with
  | [] => m
  | b :: rest => Memory.writeBytes (m.write addr b) (addr + 1) rest

/-- Memory that holds, at every address that `old` or `new` lists, the byte of `old` where `keep` says so and the byte of `new`
elsewhere. -/
def Memory.mix (keep : Nat → Bool) (old new : Memory) : Memory :=
  (old ++ new).foldl (fun m c => if keep c.1 then m else m.write c.1 (new.read c.1)) old

/-! Registers (spec/10_state.md R31, R32). -/

/-- The offset of a register in the register window, four times its index (R31). -/
def Reg.offset (r : Reg) : Nat :=
  match r with
  | .cmd => 0x00
  | .status => 0x04
  | .bufAddr => 0x08
  | .bufLen => 0x0C
  | .slAddr => 0x10
  | .slCount => 0x14
  | .v0 => 0x18
  | .v1 => 0x1C
  | .v2 => 0x20
  | .v3 => 0x24

/-- The register at an offset; none at 0x28 and above (R31, spec/40_command_execution.md R150). -/
def regAt (offset : Nat) : Option Reg :=
  match offset with
  | 0x00 => some .cmd
  | 0x04 => some .status
  | 0x08 => some .bufAddr
  | 0x0C => some .bufLen
  | 0x10 => some .slAddr
  | 0x14 => some .slCount
  | 0x18 => some .v0
  | 0x1C => some .v1
  | 0x20 => some .v2
  | 0x24 => some .v3
  | _ => none

/-- The current value of a register. -/
def State.readReg (s : State) (r : Reg) : Word :=
  match r with
  | .cmd => s.cmd
  | .status => s.statusWord
  | .bufAddr => s.bufAddr
  | .bufLen => s.bufLen
  | .slAddr => s.slAddr
  | .slCount => s.slCount
  | .v0 => s.v0
  | .v1 => s.v1
  | .v2 => s.v2
  | .v3 => s.v3

/-- The store of a host write into a register: `STATUS` is read-only and drops it (R35, spec/40_command_execution.md R151). That a
write to `CMD` also executes the word is `hostWrite`. -/
def State.writeReg (s : State) (r : Reg) (data : Word) : State :=
  match r with
  | .cmd => { s with cmd := data }
  | .status => s
  | .bufAddr => { s with bufAddr := data }
  | .bufLen => { s with bufLen := data }
  | .slAddr => { s with slAddr := data }
  | .slCount => { s with slCount := data }
  | .v0 => { s with v0 := data }
  | .v1 => { s with v1 := data }
  | .v2 => { s with v2 := data }
  | .v3 => { s with v3 := data }

/-- `V`, the concatenation `V3:V2:V1:V0` (R32). -/
def State.v (s : State) : Value := s.v3 ++ s.v2 ++ s.v1 ++ s.v0

/-- `V <- p`, all four words (spec/00_scope.md section 8). -/
def State.setV (s : State) (p : Value) : State :=
  { s with v0 := p.extractLsb' 0 32, v1 := p.extractLsb' 32 32, v2 := p.extractLsb' 64 32, v3 := p.extractLsb' 96 32 }

/-- `MemWrite` on the state's memory. -/
def State.store (s : State) (addr : Nat) (bytes : List Byte) : State :=
  { s with mem := s.mem.writeBytes addr bytes }

/-! Taking a fault, and the one way out of it. -/

/-- `raise Fault(code)` (spec/60_exceptions.md R300): `STATUS.ERR <- code`, `STATUS.FAULT <- 1`, and nothing else. `CMD` already holds the
faulting word. There is no handler, no vector, no saved state but `CMD` and `STATUS`. -/
def State.raise (s : State) (c : FaultCode) : State := { s with status := Status.latched c }

/-- `Reset` (spec/70_reset_and_hazards.md R340): the ten registers go to 0 and memory is not touched. The only way out of a fault
(spec/60_exceptions.md R302). The host's own fields are not the block's and stay (log entry 2). -/
def State.resetBlock (s : State) : State :=
  { s with
    cmd := 0, status := Status.clear, bufAddr := 0, bufLen := 0, slAddr := 0, slCount := 0
    v0 := 0, v1 := 0, v2 := 0, v3 := 0 }

end Sys2Proof.Machine
end

