-- ==== Sys2Proof/Machine/Operands.lean ====
section
/-! DEFINITION. The operand forms: the kinds and their widths, byte order, the buffer view, the value slice, the value in `V`. -/

namespace Sys2Proof

/-- The width `W` of a kind in bytes (spec/00_scope.md R4). -/
def Kind.width (k : Kind) : Nat :=
  match k with
  | .u16 | .i16 => 2
  | .u32 | .i32 | .f32 => 4
  | .u64 | .i64 | .f64 => 8
  | .u128 | .i128 => 16

/-- The type width `T = 8*W` of a kind in bits (spec/00_scope.md R4). -/
def Kind.bits (k : Kind) : Nat := 8 * k.width

/-- Whether a kind is a signed integer (spec/00_scope.md R4). Floats are not: they are bare patterns (spec/41_fixed_width.md R182). -/
def Kind.signed (k : Kind) : Bool :=
  match k with
  | .i16 | .i32 | .i64 | .i128 => true
  | .u16 | .u32 | .u64 | .u128 | .f32 | .f64 => false

/-- The largest supported byte count of a result type, `T/8` (spec/42_variable_width.md R221). -/
def WideKind.maxCount (k : WideKind) : Nat := k.kind.width

/-- `1 <= N <= T/8` (spec/42_variable_width.md R221). -/
def WideKind.supports (k : WideKind) (n : Nat) : Bool := decide (1 ≤ n) && decide (n ≤ k.maxCount)

end Sys2Proof

namespace Sys2Proof.Machine

/-! Byte order (spec/20_memory.md section 2). Patterns are natural numbers below `2^(8n)`. -/

/-- `resolve(ne)`: the order in which the host stores numbers in memory (spec/00_scope.md R3). -/
def nativeOrder : Order := if Config.nativeBig then .big else .little

/-- `resolve(end)`, the effective order (R75). -/
def resolve (t : Tag) : Order :=
  match t with
  | .be => .big
  | .le => .little
  | .ne => nativeOrder

/-- `asm(BIG, b)` (R76): the first byte is the most significant. -/
def asmBig (bytes : List Byte) : Nat :=
  match bytes with
  | [] => 0
  | b :: rest => (b.toNat <<< (8 * rest.length)) + asmBig rest

/-- `asm(LITTLE, b)` (R77): the first byte is the least significant. -/
def asmLittle (bytes : List Byte) : Nat :=
  match bytes with
  | [] => 0
  | b :: rest => b.toNat + (asmLittle rest <<< 8)

/-- `asm(order, b)` (R76, R77). -/
def asm (o : Order) (bytes : List Byte) : Nat :=
  match o with
  | .big => asmBig bytes
  | .little => asmLittle bytes

/-- The bytes of `dis(LITTLE, n, p)` (R78). -/
def disLittle (n p : Nat) : List Byte :=
  match n with
  | 0 => []
  | k + 1 => BitVec.ofNat 8 p :: disLittle k (p >>> 8)

/-- The bytes of `dis(BIG, n, p)` (R78). -/
def disBig (n p : Nat) : List Byte :=
  match n with
  | 0 => []
  | k + 1 => BitVec.ofNat 8 (p >>> (8 * k)) :: disBig k p

/-- `dis(order, n, p)` (R78). -/
def dis (o : Order) (n p : Nat) : List Byte :=
  match o with
  | .big => disBig n p
  | .little => disLittle n p

/-! Extension and signed value (spec/00_scope.md section 8). -/

/-- `zext_128(p)`. -/
def zext128 (p : Nat) : Value := BitVec.ofNat 128 p

/-- `sext_128(p, k)`: `p` if `p < 2^(k-1)`, else `p + 2^128 - 2^k`. -/
def sext128 (p k : Nat) : Value := BitVec.ofNat 128 (if p < 2 ^ (k - 1) then p else p + 2 ^ 128 - 2 ^ k)

/-- `ext_K(p)` with `k` bits of pattern: what a read leaves in all 128 bits of `V` (spec/10_state.md R32). -/
def extend (signed : Bool) (p k : Nat) : Value := if signed then sext128 p k else zext128 p

/-- `sval_T(p)`, the two's-complement value of a pattern of `t` bits. -/
def sval (t p : Nat) : Int := if p < 2 ^ (t - 1) then (p : Int) else (p : Int) - 2 ^ t

/-- `V[T-1:0]`, the operand of a write command; the bits above are ignored (spec/10_state.md R32). -/
def State.operand (s : State) (t : Nat) : Nat := s.v.toNat % 2 ^ t

/-- Whether a value fits in `n` bytes: unsigned `x < 2^(8N)`, signed `-2^(8N-1) <= s < 2^(8N-1)` (spec/42_variable_width.md R224). -/
def fits (k : Kind) (n x : Nat) : Bool :=
  if k.signed then decide (-(2 ^ (8 * n - 1) : Int) ≤ sval k.bits x) && decide (sval k.bits x < 2 ^ (8 * n - 1))
  else decide (x < 2 ^ (8 * n))

/-! The two regions of memory a command names (spec/20_memory.md R73, R74) and the checks on them. -/

/-- `in_range(addr, len)` on unbounded integers (R86). -/
def inRange (addr len : Nat) : Bool := decide (addr + len ≤ memSize)

/-- The length `L = SL_COUNT * W` of a bulk command's regions, the unbounded product (R86). -/
def State.sliceBytes (s : State) (k : Kind) : Nat := s.slCount.toNat * k.width

/-- `in_range(BUF_ADDR, BUF_LEN)` (R86). -/
def State.viewInRange (s : State) : Bool := inRange s.bufAddr.toNat s.bufLen.toNat

/-- `in_range(SL_ADDR, SL_COUNT * W)` (R86). -/
def State.sliceInRange (s : State) (k : Kind) : Bool := inRange s.slAddr.toNat (s.sliceBytes k)

/-- `overlap` of two regions of length `len` (R87). -/
def overlap (a b len : Nat) : Bool := decide (0 < len) && decide (a < b + len) && decide (b < a + len)

/-- The first `n` bytes of the buffer view (R73). -/
def State.viewBytes (s : State) (n : Nat) : List Byte := s.mem.readBytes s.bufAddr.toNat n

end Sys2Proof.Machine
end

