-- ==== Sys2Proof/Machine/BulkSlice.lean ====
section
/-! DEFINITION. The bulk slice commands (spec/43_bulk_slice.md). -/

namespace Sys2Proof.Machine

/-- The loop of R252 and R253 over the first `count` elements of `w` bytes, in ascending index: read an element at `src` in the order
`srcOrder`, write it at `dst` in the order `dstOrder`. For each element its source bytes are read before its destination bytes are written
(spec/20_memory.md R84). -/
def convert (w : Nat) (srcOrder dstOrder : Order) (src dst count : Nat) (m : Memory) : Memory :=
  match count with
  | 0 => m
  | e + 1 =>
    let before := convert w srcOrder dstOrder src dst e m
    before.writeBytes (dst + w * e) (dis dstOrder w (asm srcOrder (before.readBytes (src + w * e) w)))

/-- The checks of a bulk command, in order: `E_RANGE`, `E_LEN`, `E_OVERLAP` (R252, R253; spec/40_command_execution.md R154). -/
def bulkFault (k : Kind) (s : State) : Option FaultCode :=
  if s.viewInRange = false ∨ s.sliceInRange k = false then some .range
  else if s.bufLen.toNat ≠ s.sliceBytes k then some .len
  else if overlap s.bufAddr.toNat s.slAddr.toNat (s.sliceBytes k) then some .overlap
  else none

/-- The generic `read_into` (R253): decode the buffer view into the value slice, stored in native order. -/
def readBulk (k : Kind) (t : Tag) (s : State) : Host.Outcome State Fault Refusal :=
  match bulkFault k s with
  | some c => .next (s.raise c)
  | none =>
    .next { s with mem := convert k.width (resolve t) (resolve .ne) s.bufAddr.toNat s.slAddr.toNat s.slCount.toNat s.mem }

/-- The generic `write_into` (R252): encode the value slice, stored in native order, into the buffer view. -/
def writeBulk (k : Kind) (t : Tag) (s : State) : Host.Outcome State Fault Refusal :=
  match bulkFault k s with
  | some c => .next (s.raise c)
  | none =>
    .next { s with mem := convert k.width (resolve .ne) (resolve t) s.slAddr.toNat s.bufAddr.toNat s.slCount.toNat s.mem }

/-- `read_u16_into.<tag>` (spec/43_bulk_slice.md R260). -/
def execReadU16Into (t : Tag) (s : State) : Host.Outcome State Fault Refusal :=
  readBulk .u16 t s

/-- `read_i16_into.<tag>` (spec/43_bulk_slice.md R261). -/
def execReadI16Into (t : Tag) (s : State) : Host.Outcome State Fault Refusal :=
  readBulk .i16 t s

/-- `read_u32_into.<tag>` (spec/43_bulk_slice.md R262). -/
def execReadU32Into (t : Tag) (s : State) : Host.Outcome State Fault Refusal :=
  readBulk .u32 t s

/-- `read_i32_into.<tag>` (spec/43_bulk_slice.md R263). -/
def execReadI32Into (t : Tag) (s : State) : Host.Outcome State Fault Refusal :=
  readBulk .i32 t s

/-- `read_u64_into.<tag>` (spec/43_bulk_slice.md R264). -/
def execReadU64Into (t : Tag) (s : State) : Host.Outcome State Fault Refusal :=
  readBulk .u64 t s

/-- `read_i64_into.<tag>` (spec/43_bulk_slice.md R265). -/
def execReadI64Into (t : Tag) (s : State) : Host.Outcome State Fault Refusal :=
  readBulk .i64 t s

/-- `read_u128_into.<tag>` (spec/43_bulk_slice.md R266). -/
def execReadU128Into (t : Tag) (s : State) : Host.Outcome State Fault Refusal :=
  readBulk .u128 t s

/-- `read_i128_into.<tag>` (spec/43_bulk_slice.md R267). -/
def execReadI128Into (t : Tag) (s : State) : Host.Outcome State Fault Refusal :=
  readBulk .i128 t s

/-- `read_f32_into.<tag>` (spec/43_bulk_slice.md R268). -/
def execReadF32Into (t : Tag) (s : State) : Host.Outcome State Fault Refusal :=
  readBulk .f32 t s

/-- `read_f64_into.<tag>` (spec/43_bulk_slice.md R269). -/
def execReadF64Into (t : Tag) (s : State) : Host.Outcome State Fault Refusal :=
  readBulk .f64 t s

/-- `write_u16_into.<tag>` (spec/43_bulk_slice.md R270). -/
def execWriteU16Into (t : Tag) (s : State) : Host.Outcome State Fault Refusal :=
  writeBulk .u16 t s

/-- `write_i16_into.<tag>` (spec/43_bulk_slice.md R271). -/
def execWriteI16Into (t : Tag) (s : State) : Host.Outcome State Fault Refusal :=
  writeBulk .i16 t s

/-- `write_u32_into.<tag>` (spec/43_bulk_slice.md R272). -/
def execWriteU32Into (t : Tag) (s : State) : Host.Outcome State Fault Refusal :=
  writeBulk .u32 t s

/-- `write_i32_into.<tag>` (spec/43_bulk_slice.md R273). -/
def execWriteI32Into (t : Tag) (s : State) : Host.Outcome State Fault Refusal :=
  writeBulk .i32 t s

/-- `write_u64_into.<tag>` (spec/43_bulk_slice.md R274). -/
def execWriteU64Into (t : Tag) (s : State) : Host.Outcome State Fault Refusal :=
  writeBulk .u64 t s

/-- `write_i64_into.<tag>` (spec/43_bulk_slice.md R275). -/
def execWriteI64Into (t : Tag) (s : State) : Host.Outcome State Fault Refusal :=
  writeBulk .i64 t s

/-- `write_u128_into.<tag>` (spec/43_bulk_slice.md R276). -/
def execWriteU128Into (t : Tag) (s : State) : Host.Outcome State Fault Refusal :=
  writeBulk .u128 t s

/-- `write_i128_into.<tag>` (spec/43_bulk_slice.md R277). -/
def execWriteI128Into (t : Tag) (s : State) : Host.Outcome State Fault Refusal :=
  writeBulk .i128 t s

/-- `write_f32_into.<tag>` (spec/43_bulk_slice.md R278). -/
def execWriteF32Into (t : Tag) (s : State) : Host.Outcome State Fault Refusal :=
  writeBulk .f32 t s

/-- `write_f64_into.<tag>` (spec/43_bulk_slice.md R279). -/
def execWriteF64Into (t : Tag) (s : State) : Host.Outcome State Fault Refusal :=
  writeBulk .f64 t s

end Sys2Proof.Machine
end

