-- ==== Sys2Proof/Machine/FixedWidth.lean ====
section
/-! DEFINITION. The fixed-width commands (spec/41_fixed_width.md). -/

namespace Sys2Proof.Machine

/-- The generic read (R181): check the view, assemble the first `W` bytes in the effective order, extend into all of `V`. -/
def readFixed (k : Kind) (t : Tag) (s : State) : Host.Outcome State Fault Refusal :=
  if s.viewInRange = false then .next (s.raise .range)
  else if s.bufLen.toNat < k.width then .next (s.raise .short)
  else .next (s.setV (extend k.signed (asm (resolve t) (s.viewBytes k.width)) k.bits))

/-- The generic write (R183): check the view, write the `W` bytes of `V[T-1:0]` in the effective order at the start of the view. -/
def writeFixed (k : Kind) (t : Tag) (s : State) : Host.Outcome State Fault Refusal :=
  if s.viewInRange = false then .next (s.raise .range)
  else if s.bufLen.toNat < k.width then .next (s.raise .short)
  else .next (s.store s.bufAddr.toNat (dis (resolve t) k.width (s.operand k.bits)))

/-- `read_u16.<tag>` (spec/41_fixed_width.md R185). -/
def execReadU16 (t : Tag) (s : State) : Host.Outcome State Fault Refusal :=
  readFixed .u16 t s

/-- `read_i16.<tag>` (spec/41_fixed_width.md R186). -/
def execReadI16 (t : Tag) (s : State) : Host.Outcome State Fault Refusal :=
  readFixed .i16 t s

/-- `read_u32.<tag>` (spec/41_fixed_width.md R187). -/
def execReadU32 (t : Tag) (s : State) : Host.Outcome State Fault Refusal :=
  readFixed .u32 t s

/-- `read_i32.<tag>` (spec/41_fixed_width.md R188). -/
def execReadI32 (t : Tag) (s : State) : Host.Outcome State Fault Refusal :=
  readFixed .i32 t s

/-- `read_u64.<tag>` (spec/41_fixed_width.md R189). -/
def execReadU64 (t : Tag) (s : State) : Host.Outcome State Fault Refusal :=
  readFixed .u64 t s

/-- `read_i64.<tag>` (spec/41_fixed_width.md R190). -/
def execReadI64 (t : Tag) (s : State) : Host.Outcome State Fault Refusal :=
  readFixed .i64 t s

/-- `read_u128.<tag>` (spec/41_fixed_width.md R191). -/
def execReadU128 (t : Tag) (s : State) : Host.Outcome State Fault Refusal :=
  readFixed .u128 t s

/-- `read_i128.<tag>` (spec/41_fixed_width.md R192). -/
def execReadI128 (t : Tag) (s : State) : Host.Outcome State Fault Refusal :=
  readFixed .i128 t s

/-- `read_f32.<tag>` (spec/41_fixed_width.md R193). -/
def execReadF32 (t : Tag) (s : State) : Host.Outcome State Fault Refusal :=
  readFixed .f32 t s

/-- `read_f64.<tag>` (spec/41_fixed_width.md R194). -/
def execReadF64 (t : Tag) (s : State) : Host.Outcome State Fault Refusal :=
  readFixed .f64 t s

/-- `write_u16.<tag>` (spec/41_fixed_width.md R195). -/
def execWriteU16 (t : Tag) (s : State) : Host.Outcome State Fault Refusal :=
  writeFixed .u16 t s

/-- `write_i16.<tag>` (spec/41_fixed_width.md R196). -/
def execWriteI16 (t : Tag) (s : State) : Host.Outcome State Fault Refusal :=
  writeFixed .i16 t s

/-- `write_u32.<tag>` (spec/41_fixed_width.md R197). -/
def execWriteU32 (t : Tag) (s : State) : Host.Outcome State Fault Refusal :=
  writeFixed .u32 t s

/-- `write_i32.<tag>` (spec/41_fixed_width.md R198). -/
def execWriteI32 (t : Tag) (s : State) : Host.Outcome State Fault Refusal :=
  writeFixed .i32 t s

/-- `write_u64.<tag>` (spec/41_fixed_width.md R199). -/
def execWriteU64 (t : Tag) (s : State) : Host.Outcome State Fault Refusal :=
  writeFixed .u64 t s

/-- `write_i64.<tag>` (spec/41_fixed_width.md R200). -/
def execWriteI64 (t : Tag) (s : State) : Host.Outcome State Fault Refusal :=
  writeFixed .i64 t s

/-- `write_u128.<tag>` (spec/41_fixed_width.md R201). -/
def execWriteU128 (t : Tag) (s : State) : Host.Outcome State Fault Refusal :=
  writeFixed .u128 t s

/-- `write_i128.<tag>` (spec/41_fixed_width.md R202). -/
def execWriteI128 (t : Tag) (s : State) : Host.Outcome State Fault Refusal :=
  writeFixed .i128 t s

/-- `write_f32.<tag>` (spec/41_fixed_width.md R203). -/
def execWriteF32 (t : Tag) (s : State) : Host.Outcome State Fault Refusal :=
  writeFixed .f32 t s

/-- `write_f64.<tag>` (spec/41_fixed_width.md R204). -/
def execWriteF64 (t : Tag) (s : State) : Host.Outcome State Fault Refusal :=
  writeFixed .f64 t s

end Sys2Proof.Machine
end

