-- ==== Sys2Proof/Machine/VariableWidth.lean ====
section
/-! DEFINITION. The variable-width commands (spec/42_variable_width.md). -/

namespace Sys2Proof.Machine

/-- The reads of R225 to R228: check `N`, then the view; assemble the first `N` bytes in the effective order; extend from bit `8N-1`. -/
def readVariable (k : WideKind) (t : Tag) (n : Nat) (s : State) : Host.Outcome State Fault Refusal :=
  if k.supports n = false then .next (s.raise .width)
  else if s.viewInRange = false then .next (s.raise .range)
  else if s.bufLen.toNat < n then .next (s.raise .short)
  else .next (s.setV (extend k.kind.signed (asm (resolve t) (s.viewBytes n)) (8 * n)))

/-- The writes of R229 to R232: check `N`, the view, and that `V[T-1:0]` fits in `N` bytes; write its low `N` bytes. -/
def writeVariable (k : WideKind) (t : Tag) (n : Nat) (s : State) : Host.Outcome State Fault Refusal :=
  if k.supports n = false then .next (s.raise .width)
  else if s.viewInRange = false then .next (s.raise .range)
  else if s.bufLen.toNat < n then .next (s.raise .short)
  else if fits k.kind n (s.operand k.kind.bits) = false then .next (s.raise .fit)
  else .next (s.store s.bufAddr.toNat (dis (resolve t) n (s.operand k.kind.bits % 2 ^ (8 * n))))

/-- `read_uint.<tag> N` (spec/42_variable_width.md R225). -/
def execReadUint (t : Tag) (n : Nat) (s : State) : Host.Outcome State Fault Refusal :=
  readVariable .u64 t n s

/-- `read_int.<tag> N` (spec/42_variable_width.md R226). -/
def execReadInt (t : Tag) (n : Nat) (s : State) : Host.Outcome State Fault Refusal :=
  readVariable .i64 t n s

/-- `read_uint128.<tag> N` (spec/42_variable_width.md R227). -/
def execReadUint128 (t : Tag) (n : Nat) (s : State) : Host.Outcome State Fault Refusal :=
  readVariable .u128 t n s

/-- `read_int128.<tag> N` (spec/42_variable_width.md R228). -/
def execReadInt128 (t : Tag) (n : Nat) (s : State) : Host.Outcome State Fault Refusal :=
  readVariable .i128 t n s

/-- `write_uint.<tag> N` (spec/42_variable_width.md R229). -/
def execWriteUint (t : Tag) (n : Nat) (s : State) : Host.Outcome State Fault Refusal :=
  writeVariable .u64 t n s

/-- `write_int.<tag> N` (spec/42_variable_width.md R230). -/
def execWriteInt (t : Tag) (n : Nat) (s : State) : Host.Outcome State Fault Refusal :=
  writeVariable .i64 t n s

/-- `write_uint128.<tag> N` (spec/42_variable_width.md R231). -/
def execWriteUint128 (t : Tag) (n : Nat) (s : State) : Host.Outcome State Fault Refusal :=
  writeVariable .u128 t n s

/-- `write_int128.<tag> N` (spec/42_variable_width.md R232). -/
def execWriteInt128 (t : Tag) (n : Nat) (s : State) : Host.Outcome State Fault Refusal :=
  writeVariable .i128 t n s

end Sys2Proof.Machine
end

