-- ==== Sys2Proof/Machine/Dispatch.lean ====
section
/-! DEFINITION. One arm per command: the meaning of each row of spec/30_encoding.md R117. -/

namespace Sys2Proof.Machine

def exec (i : Instr) (s : State) : Host.Outcome State Fault Refusal :=
  match i with
  | .readU16 tag => Sys2Proof.Machine.execReadU16 tag s
  | .readI16 tag => Sys2Proof.Machine.execReadI16 tag s
  | .readU32 tag => Sys2Proof.Machine.execReadU32 tag s
  | .readI32 tag => Sys2Proof.Machine.execReadI32 tag s
  | .readU64 tag => Sys2Proof.Machine.execReadU64 tag s
  | .readI64 tag => Sys2Proof.Machine.execReadI64 tag s
  | .readU128 tag => Sys2Proof.Machine.execReadU128 tag s
  | .readI128 tag => Sys2Proof.Machine.execReadI128 tag s
  | .readF32 tag => Sys2Proof.Machine.execReadF32 tag s
  | .readF64 tag => Sys2Proof.Machine.execReadF64 tag s
  | .writeU16 tag => Sys2Proof.Machine.execWriteU16 tag s
  | .writeI16 tag => Sys2Proof.Machine.execWriteI16 tag s
  | .writeU32 tag => Sys2Proof.Machine.execWriteU32 tag s
  | .writeI32 tag => Sys2Proof.Machine.execWriteI32 tag s
  | .writeU64 tag => Sys2Proof.Machine.execWriteU64 tag s
  | .writeI64 tag => Sys2Proof.Machine.execWriteI64 tag s
  | .writeU128 tag => Sys2Proof.Machine.execWriteU128 tag s
  | .writeI128 tag => Sys2Proof.Machine.execWriteI128 tag s
  | .writeF32 tag => Sys2Proof.Machine.execWriteF32 tag s
  | .writeF64 tag => Sys2Proof.Machine.execWriteF64 tag s
  | .readUint tag n => Sys2Proof.Machine.execReadUint tag n s
  | .readInt tag n => Sys2Proof.Machine.execReadInt tag n s
  | .readUint128 tag n => Sys2Proof.Machine.execReadUint128 tag n s
  | .readInt128 tag n => Sys2Proof.Machine.execReadInt128 tag n s
  | .writeUint tag n => Sys2Proof.Machine.execWriteUint tag n s
  | .writeInt tag n => Sys2Proof.Machine.execWriteInt tag n s
  | .writeUint128 tag n => Sys2Proof.Machine.execWriteUint128 tag n s
  | .writeInt128 tag n => Sys2Proof.Machine.execWriteInt128 tag n s
  | .readU16Into tag => Sys2Proof.Machine.execReadU16Into tag s
  | .readI16Into tag => Sys2Proof.Machine.execReadI16Into tag s
  | .readU32Into tag => Sys2Proof.Machine.execReadU32Into tag s
  | .readI32Into tag => Sys2Proof.Machine.execReadI32Into tag s
  | .readU64Into tag => Sys2Proof.Machine.execReadU64Into tag s
  | .readI64Into tag => Sys2Proof.Machine.execReadI64Into tag s
  | .readU128Into tag => Sys2Proof.Machine.execReadU128Into tag s
  | .readI128Into tag => Sys2Proof.Machine.execReadI128Into tag s
  | .readF32Into tag => Sys2Proof.Machine.execReadF32Into tag s
  | .readF64Into tag => Sys2Proof.Machine.execReadF64Into tag s
  | .writeU16Into tag => Sys2Proof.Machine.execWriteU16Into tag s
  | .writeI16Into tag => Sys2Proof.Machine.execWriteI16Into tag s
  | .writeU32Into tag => Sys2Proof.Machine.execWriteU32Into tag s
  | .writeI32Into tag => Sys2Proof.Machine.execWriteI32Into tag s
  | .writeU64Into tag => Sys2Proof.Machine.execWriteU64Into tag s
  | .writeI64Into tag => Sys2Proof.Machine.execWriteI64Into tag s
  | .writeU128Into tag => Sys2Proof.Machine.execWriteU128Into tag s
  | .writeI128Into tag => Sys2Proof.Machine.execWriteI128Into tag s
  | .writeF32Into tag => Sys2Proof.Machine.execWriteF32Into tag s
  | .writeF64Into tag => Sys2Proof.Machine.execWriteF64Into tag s

end Sys2Proof.Machine
end

