-- ==== Sys2Proof/Machine/Port.lean ====
section
/-! DEFINITION. The host's accesses and the execution of a command (spec/40_command_execution.md, spec/70_reset_and_hazards.md). -/

namespace Sys2Proof.Machine

/-- `Execute(word)` (R153): an illegal word faults with `E_ILLEGAL`, a command runs. One atomic step. -/
def execute (w : Word) (s : State) : Host.Outcome State Fault Refusal :=
  match decode w with
  | .error _ => .next (s.raise .illegal)
  | .ok i => exec i s

/-- A register access the port takes: 32 bits wide at an offset that is a multiple of 4 (R156). -/
def portTakes (size : AccessSize) (offset : Nat) : Bool := size == .word && offset % 4 == 0

/-- What `HostRead(offset)` returns (R150): the register there, 0 at offsets 0x28 and above. -/
def hostReadValue (offset : Nat) (s : State) : Word :=
  match regAt offset with
  | some r => s.readReg r
  | none => 0

/-- `HostRead(offset)` (R150): it changes no register and no memory byte; what it returns joins the host's responses (log entry 3). -/
def hostRead (offset : Nat) (s : State) : Host.Outcome State Fault Refusal :=
  .next { s with responses := s.responses ++ [.register (hostReadValue offset s)] }

/-- `HostWrite(offset, data)` (R151): ignored while frozen (R152); a write to `CMD` stores the word and executes it; a write to `STATUS`
or at an offset with no register does nothing. -/
def hostWrite (offset : Nat) (data : Word) (s : State) : Host.Outcome State Fault Refusal :=
  if s.frozen then .next s
  else
    match regAt offset with
    | some .cmd => execute data (s.writeReg .cmd data)
    | some r => .next (s.writeReg r data)
    | none => .next s

/-- A write to `CMD` whose command an outside reset cuts (spec/70_reset_and_hazards.md R343): the registers take their reset values, and
each byte the command would have changed is old or new, a free value. Log entry 6. -/
def cutCommand (data : Word) (s : State) : Host.Outcome State Fault Refusal :=
  match hostWrite 0x00 data s with
  | .next done =>
    .next { s with mem := Memory.mix (Config.resetKeepsOld s.cuts) s.mem done.mem, cuts := s.cuts + 1 }.resetBlock
  | .fault r => .fault r
  | .refused r => .refused r

/-- The host reads one byte of memory by its own means (spec/70_reset_and_hazards.md R351 L8). Log entry 5. -/
def hostMemRead (addr : Nat) (s : State) : Host.Outcome State Fault Refusal :=
  if addr < memSize then .next { s with responses := s.responses ++ [.memory (s.mem.read addr)] } else .fault .outsideMemory

/-- The host writes one byte of memory by its own means (spec/70_reset_and_hazards.md R351 L8). Log entry 5. -/
def hostMemWrite (addr : Nat) (data : Byte) (s : State) : Host.Outcome State Fault Refusal :=
  if addr < memSize then .next { s with mem := s.mem.write addr data } else .fault .outsideMemory

/-- One access of the host. -/
def serve (a : HostAccess) (s : State) : Host.Outcome State Fault Refusal :=
  match a with
  | .regRead size offset => if portTakes size offset then hostRead offset s else .refused .registerAccess
  | .regWrite size offset data => if portTakes size offset then hostWrite offset data s else .refused .registerAccess
  | .reset => .next s.resetBlock
  | .memRead addr => hostMemRead addr s
  | .memWrite addr data => hostMemWrite addr data s
  | .cutCommand data => cutCommand data s

/-- The block's next step: it serves the oldest pending access; with none it is idle and holds its registers
(spec/60_exceptions.md R311). -/
def serveNext (s : State) : Host.Outcome State Fault Refusal :=
  match s.pending with
  | [] => .next s
  | a :: rest => serve a { s with pending := rest }

/-- `s` with the host about to write a command word to `CMD`: where the block takes its next command from (spec/10_state.md R34). -/
def State.offerCommand (s : State) (w : Word) : State :=
  { s with pending := .regWrite .word 0x00 w :: s.pending }

end Sys2Proof.Machine
end

