-- ==== Sys2Proof/Machine/Step.lean ====
section
/-! DEFINITION. One step of the machine: one access of the host (log entry 2). -/

namespace Sys2Proof.Machine

/-- The step. Deterministic: "every state component after every step is a function of the state before it, the access, and
NATIVE_BIG" (spec/93_implementation_defined.md section 2). -/
def step (s : State) : Host.Outcome State Fault Refusal := serveNext s

/-- `s` with the word `w` of the opcode table as the host's next write to `CMD`, so that the very next step runs it. -/
def State.withFetchWord (s : State) (nbits w : Nat) : State := s.offerCommand (tableWord nbits w)

end Sys2Proof.Machine
end

