-- ==== Sys2Proof/Safety.lean ====
section
/-! DEFINITION. The terms claims use: how a run ends, the invariants of the machine, and the spec's own formulas for patterns in memory. -/

namespace Sys2Proof.Machine

/-- `k` steps, up to the first stop. -/
def steps (k : Nat) (s : State) : Host.Outcome State Fault Refusal :=
  match k with
  | 0 => .next s
  | j + 1 =>
    match step s with
    | .next s' => steps j s'
    | .fault r => .fault r
    | .refused r => .refused r

/-- A run (spec/40_command_execution.md R159): the host makes the accesses `accesses` one after another, from the state `s`. -/
def run (accesses : List HostAccess) (s : State) : Host.Outcome State Fault Refusal :=
  steps accesses.length { s with pending := accesses }

/-- A run that ended in `s` "ends normally" (R159). -/
abbrev State.endsNormally (s : State) : Prop := s.status.fault = false

/-- A run that ended in `s` "ends faulted" (R159). -/
abbrev State.endsFaulted (s : State) : Prop := s.status.fault = true

/-- The legal values of `STATUS`: no fault and no cause, or a fault with a code of 1 to 7 (spec/10_state.md R35). -/
abbrev Status.legal (st : Status) : Prop :=
  (st.fault = false ∧ st.err = 0) ∨ (st.fault = true ∧ 1 ≤ st.err.toNat ∧ st.err.toNat ≤ 7)

/-- The invariant of the machine: memory is in its canonical form and `STATUS` has a legal value. -/
abbrev State.Inv (s : State) : Prop := s.mem.wf ∧ s.status.legal

/-- A faulted state holds its cause: running the word in `CMD` again on the registers as they stand, with the fault cleared, gives this
very state ("the host can recompute the cause from CMD and the operand registers", spec/60_exceptions.md R291). -/
def State.faultRecorded (s : State) : Prop :=
  s.status.fault = true → execute s.cmd { s with status := Status.clear } = .next s

/-- Whether a cause applies to a command, as its rule says it, whatever other cause applies too (spec/60_exceptions.md R293 to R298). -/
def causeAppliesTo (i : Instr) (s : State) (c : FaultCode) : Prop :=
  let op := i.command.op
  let w := i.command.kind.width
  let n := i.command.n
  let bulk : Prop := op = .readInto ∨ op = .writeInto
  let region := s.slCount.toNat * w
  match c with
  | .illegal => False
  | .width => (op = .readv ∨ op = .writev) ∧ (n = 0 ∨ w < n)
  | .range => 2 ^ 32 < s.bufAddr.toNat + s.bufLen.toNat ∨ (bulk ∧ 2 ^ 32 < s.slAddr.toNat + region)
  | .short => ((op = .read ∨ op = .write) ∧ s.bufLen.toNat < w) ∨ ((op = .readv ∨ op = .writev) ∧ s.bufLen.toNat < n)
  | .len => bulk ∧ s.bufLen.toNat ≠ region
  | .overlap =>
    bulk ∧ 0 < region ∧ s.bufAddr.toNat < s.slAddr.toNat + region ∧ s.slAddr.toNat < s.bufAddr.toNat + region
  | .fit =>
    op = .writev ∧
      if i.command.kind.signed then
        sval (8 * w) (s.operand (8 * w)) < -(2 ^ (8 * n - 1) : Int) ∨ (2 ^ (8 * n - 1) : Int) ≤ sval (8 * w) (s.operand (8 * w))
      else 2 ^ (8 * n) ≤ s.operand (8 * w)

/-- Whether a cause applies to a word written to `CMD`: `E_ILLEGAL` when it is no command (R292), else as for its command. -/
def causeApplies (w : Word) (s : State) (c : FaultCode) : Prop :=
  match decode w with
  | .error _ => c = .illegal
  | .ok i => causeAppliesTo i s c

/-- The access does not take the block out of reset: everything but the reset input and a command cut by reset. -/
def HostAccess.keepsFault (a : HostAccess) : Bool :=
  match a with
  | .reset => false
  | .cutCommand _ => false
  | .regRead _ _ | .regWrite _ _ _ | .memRead _ | .memWrite _ _ => true

/-- The access is not one by which the host itself writes memory. -/
def HostAccess.sparesMemory (a : HostAccess) : Bool :=
  match a with
  | .memWrite _ _ => false
  | .reset | .cutCommand _ | .regRead _ _ | .regWrite _ _ _ | .memRead _ => true

/-- The place of byte `i` of `n` in a pattern, counted in bytes from the least significant: `n-1-i` under BIG, `i` under LITTLE
(spec/20_memory.md R76, R77, R78). -/
def bytePlace (o : Order) (n i : Nat) : Nat :=
  match o with
  | .big => n - 1 - i
  | .little => i

/-- The assembled value of the `n` bytes of memory at `addr` as the sum of R76 and R77: `Σ byte[i] << (8*place(i))`. -/
def patternAt (o : Order) (m : Memory) (addr n : Nat) : Nat :=
  ∑ i ∈ Finset.range n, (m.read (addr + i)).toNat * 2 ^ (8 * bytePlace o n i)

/-- The byte at index `i` of the `n`-byte encoding of the pattern `p` (R78). -/
def encodedByte (o : Order) (n p i : Nat) : Byte := BitVec.ofNat 8 (p / 2 ^ (8 * bytePlace o n i))

/-- The tag a command's tag stands for on this build: `ne` is `be` when `NATIVE_BIG`, else `le` (R75). -/
def resolvedTag (t : Tag) : Tag :=
  match t with
  | .be => .be
  | .le => .le
  | .ne => if Config.nativeBig then .be else .le

end Sys2Proof.Machine
end

