-- ==== Sys2Proof/Certificates/Slice0/Obligations.lean ====
section
/-! DEFINITION. The statements for the provers, in the order of OBLIGATIONS.json. Each docstring names the rule of spec/ it formalises. -/

open Sys2Proof Sys2Proof.Machine

/-! ## Encoding -/

/-- One written-out word of each operation decodes to its command (spec/30_encoding.md R117, R119). -/
def Obligations.DecodesWordsOfEachOperation : Prop :=
  decode 0x00000001 = .ok (.readU16 .be) ∧ decode 0x00000102 = .ok (.writeU16 .le) ∧
    decode 0x00020063 = .ok (.readInt .be 2) ∧ decode 0x00020024 = .ok (.writeUint .be 2) ∧
    decode 0x00000155 = .ok (.readI32Into .le) ∧ decode 0x00000296 = .ok (.writeF32Into .ne)

/-- Decoding the word of a well-formed command gives the command back: all 48, every tag, every `N` of 0 to 31. -/
def Obligations.DecodeOfEncode : Prop :=
  ∀ i : Instr, i.wellFormed = true → decode (encode i) = .ok i

/-- A word that decodes is the word of a well-formed command: every word has one meaning, and no bit is dropped. -/
def Obligations.EncodeOfDecode : Prop :=
  ∀ (w : Word) (i : Instr), decode w = .ok i → i.wellFormed = true ∧ encode i = w

/-- `Decode` on all 2^32 words (R116): which words are legal, and the fields a legal word decodes to. -/
def Obligations.DecodeOnAllWords : Prop :=
  ∀ w : Word,
    let op := w.toNat % 2 ^ 4
    let kind := w.toNat / 2 ^ 4 % 2 ^ 4
    let endTag := w.toNat / 2 ^ 8 % 2 ^ 2
    let res0 := w.toNat / 2 ^ 10 % 2 ^ 6
    let n := w.toNat / 2 ^ 16 % 2 ^ 5
    let res1 := w.toNat / 2 ^ 21
    ((∃ i, decode w = .ok i) ↔
      res0 = 0 ∧ res1 = 0 ∧ 1 ≤ op ∧ op ≤ 6 ∧ endTag ≠ 3 ∧ kind ∈ [0, 1, 2, 3, 4, 5, 6, 7, 9, 10] ∧
        (op ∈ [3, 4] → kind ∈ [2, 3, 6, 7]) ∧ (op ∉ [3, 4] → n = 0)) ∧
    ∀ i, decode w = .ok i →
      i.command.op.code = op ∧ i.command.kind.code = kind ∧ i.command.tag.code = endTag ∧ i.command.n = n

/-- The counts of R118: 888 legal words, 480 of them variable-width words with an unsupported `N`. -/
def Obligations.CountsOfLegalWords : Prop :=
  Set.ncard { w : Word | ∃ i, decode w = .ok i } = 888 ∧
    Set.ncard { w : Word | ∃ (k : WideKind) (t : Tag) (n : Nat), k.supports n = false ∧
      (decode w = .ok (variableRead k t n) ∨ decode w = .ok (variableWrite k t n)) } = 480

/-! ## Byte order -/

/-- Assembly is the positional sum of R76 and R77, and is a pattern of `8n` bits. -/
def Obligations.AssemblyIsPositionalSum : Prop :=
  ∀ bytes : List Byte,
    (asm .big bytes = ∑ i ∈ Finset.range bytes.length, (bytes.getD i 0).toNat * 2 ^ (8 * (bytes.length - 1 - i))) ∧
    (asm .little bytes = ∑ i ∈ Finset.range bytes.length, (bytes.getD i 0).toNat * 2 ^ (8 * i)) ∧
    asm .big bytes < 2 ^ (8 * bytes.length) ∧ asm .little bytes < 2 ^ (8 * bytes.length)

/-- Disassembly byte by byte (R78). -/
def Obligations.DisassemblyByteByByte : Prop :=
  ∀ n p : Nat,
    (dis .big n p).length = n ∧ (dis .little n p).length = n ∧
    ∀ i < n, (dis .big n p)[i]? = some (BitVec.ofNat 8 (p / 2 ^ (8 * (n - 1 - i)))) ∧
      (dis .little n p)[i]? = some (BitVec.ofNat 8 (p / 2 ^ (8 * i)))

/-- The four laws of R79. -/
def Obligations.ByteOrderLaws : Prop :=
  (∀ (o : Order) (n p : Nat), p < 2 ^ (8 * n) → asm o (dis o n p) = p) ∧
  (∀ (o : Order) (bytes : List Byte), dis o bytes.length (asm o bytes) = bytes) ∧
  (∀ n p : Nat, dis .big n p = (dis .little n p).reverse) ∧
  ∀ (o : Order) (b : Byte), asm o [b] = b.toNat

/-- Native is an alias of big or little, for every command (R75). -/
def Obligations.NativeTagIsAnAlias : Prop :=
  resolve .be = .big ∧ resolve .le = .little ∧ resolve .ne = (if Config.nativeBig then .big else .little) ∧
  ∀ s : State,
    (∀ k : Kind, exec (fixedRead k .ne) s = exec (fixedRead k (resolvedTag .ne)) s ∧
      exec (fixedWrite k .ne) s = exec (fixedWrite k (resolvedTag .ne)) s ∧
      exec (bulkRead k .ne) s = exec (bulkRead k (resolvedTag .ne)) s ∧
      exec (bulkWrite k .ne) s = exec (bulkWrite k (resolvedTag .ne)) s) ∧
    ∀ (k : WideKind) (n : Nat), exec (variableRead k .ne n) s = exec (variableRead k (resolvedTag .ne) n) s ∧
      exec (variableWrite k .ne n) s = exec (variableWrite k (resolvedTag .ne) n) s

/-! ## The fixed-width commands -/

/-- The generic read (R181), for read_u16, read_i16, read_u32, read_i32, read_u64, read_i64, read_u128, read_i128, read_f32 and read_f64:
its two faults; otherwise it completes, `V` is the value of the first `W` bytes, and nothing but `V` changes. -/
def Obligations.FixedReadResult : Prop :=
  ∀ (k : Kind) (t : Tag) (s : State),
    (2 ^ 32 < s.bufAddr.toNat + s.bufLen.toNat →
      exec (fixedRead k t) s = .next { s with status := { fault := true, err := 3 } }) ∧
    (s.bufAddr.toNat + s.bufLen.toNat ≤ 2 ^ 32 → s.bufLen.toNat < k.width →
      exec (fixedRead k t) s = .next { s with status := { fault := true, err := 4 } }) ∧
    (s.bufAddr.toNat + s.bufLen.toNat ≤ 2 ^ 32 → k.width ≤ s.bufLen.toNat →
      ∃ s', exec (fixedRead k t) s = .next s' ∧
        s' = { s with v0 := s'.v0, v1 := s'.v1, v2 := s'.v2, v3 := s'.v3 } ∧
        let p := patternAt (resolve t) s.mem s.bufAddr.toNat k.width
        (k.signed = true → s'.v.toInt = if p < 2 ^ (k.bits - 1) then (p : Int) else (p : Int) - 2 ^ k.bits) ∧
        (k.signed = false → s'.v.toNat = p))

/-- The generic write (R183), for write_u16, write_i16, write_u32, write_i32, write_u64, write_i64, write_u128, write_i128, write_f32
and write_f64: its two faults; otherwise it completes, the first `W` bytes of the view hold the encoding of `V[T-1:0]`, and nothing
else changes. -/
def Obligations.FixedWriteResult : Prop :=
  ∀ (k : Kind) (t : Tag) (s : State),
    (2 ^ 32 < s.bufAddr.toNat + s.bufLen.toNat →
      exec (fixedWrite k t) s = .next { s with status := { fault := true, err := 3 } }) ∧
    (s.bufAddr.toNat + s.bufLen.toNat ≤ 2 ^ 32 → s.bufLen.toNat < k.width →
      exec (fixedWrite k t) s = .next { s with status := { fault := true, err := 4 } }) ∧
    (s.bufAddr.toNat + s.bufLen.toNat ≤ 2 ^ 32 → k.width ≤ s.bufLen.toNat →
      ∃ s', exec (fixedWrite k t) s = .next s' ∧ s' = { s with mem := s'.mem } ∧
        (∀ i < k.width, s'.mem.read (s.bufAddr.toNat + i) =
          encodedByte (resolve t) k.width (s.v.toNat % 2 ^ k.bits) i) ∧
        ∀ a, a < s.bufAddr.toNat ∨ s.bufAddr.toNat + k.width ≤ a → s'.mem.read a = s.mem.read a)

/-- Round trip (R184 law 1): a write followed by the read of the same kind and tag leaves in `V` the extension of `V[T-1:0]`. -/
def Obligations.FixedWriteThenRead : Prop :=
  ∀ (k : Kind) (t : Tag) (s : State),
    s.bufAddr.toNat + s.bufLen.toNat ≤ 2 ^ 32 → k.width ≤ s.bufLen.toNat →
    ∃ s₁ s₂, exec (fixedWrite k t) s = .next s₁ ∧ exec (fixedRead k t) s₁ = .next s₂ ∧
      s₂.v = if k.signed then (s.v.setWidth k.bits).signExtend 128 else (s.v.setWidth k.bits).setWidth 128

/-- Symmetry (R184 law 2): the bytes a write stores under `be` are the bytes it stores under `le`, reversed. -/
def Obligations.FixedWriteSymmetry : Prop :=
  ∀ (k : Kind) (s : State),
    s.bufAddr.toNat + s.bufLen.toNat ≤ 2 ^ 32 → k.width ≤ s.bufLen.toNat →
    ∃ b l, exec (fixedWrite k .be) s = .next b ∧ exec (fixedWrite k .le) s = .next l ∧
      ∀ i < k.width, b.mem.read (s.bufAddr.toNat + i) = l.mem.read (s.bufAddr.toNat + (k.width - 1 - i))

/-- Swapping a field in place (spec/70_reset_and_hazards.md R349 case a): a big-endian read and then a little-endian write on the same
view reverse its first `W` bytes and touch no other byte. -/
def Obligations.ReadThenWriteSwapsField : Prop :=
  ∀ (k : Kind) (s : State),
    s.bufAddr.toNat + s.bufLen.toNat ≤ 2 ^ 32 → k.width ≤ s.bufLen.toNat →
    ∃ s₁ s₂, exec (fixedRead k .be) s = .next s₁ ∧ exec (fixedWrite k .le) s₁ = .next s₂ ∧
      (∀ i < k.width, s₂.mem.read (s.bufAddr.toNat + i) = s.mem.read (s.bufAddr.toNat + (k.width - 1 - i))) ∧
      ∀ a, a < s.bufAddr.toNat ∨ s.bufAddr.toNat + k.width ≤ a → s₂.mem.read a = s.mem.read a

/-- A scalar read depends only on the bytes it consumes ("consumes exactly the first W bytes", R181; `N` bytes, R222): two states with the
same view that agree on those bytes get the same `V`. -/
def Obligations.ScalarReadDependsOnItsBytes : Prop :=
  ∀ (t : Tag) (s u : State),
    s.bufAddr = u.bufAddr → s.bufLen = u.bufLen → s.bufAddr.toNat + s.bufLen.toNat ≤ 2 ^ 32 →
    (∀ k : Kind, k.width ≤ s.bufLen.toNat →
      (∀ i < k.width, s.mem.read (s.bufAddr.toNat + i) = u.mem.read (s.bufAddr.toNat + i)) →
      ∃ s' u', exec (fixedRead k t) s = .next s' ∧ exec (fixedRead k t) u = .next u' ∧ s'.v = u'.v) ∧
    ∀ (k : WideKind) (n : Nat), 1 ≤ n → n ≤ k.maxCount → n ≤ s.bufLen.toNat →
      (∀ i < n, s.mem.read (s.bufAddr.toNat + i) = u.mem.read (s.bufAddr.toNat + i)) →
      ∃ s' u', exec (variableRead k t n) s = .next s' ∧ exec (variableRead k t n) u = .next u' ∧ s'.v = u'.v

/-! ## The variable-width commands -/

/-- The reads of R225 to R228, for read_uint, read_int, read_uint128 and read_int128: they complete, `V` is the `N`-byte quantity
zero-extended, or sign-extended from bit `8N-1`, and nothing but `V` changes. -/
def Obligations.VariableReadResult : Prop :=
  ∀ (k : WideKind) (t : Tag) (n : Nat) (s : State),
    1 ≤ n → n ≤ k.maxCount → s.bufAddr.toNat + s.bufLen.toNat ≤ 2 ^ 32 → n ≤ s.bufLen.toNat →
    ∃ s', exec (variableRead k t n) s = .next s' ∧
      s' = { s with v0 := s'.v0, v1 := s'.v1, v2 := s'.v2, v3 := s'.v3 } ∧
      let u := patternAt (resolve t) s.mem s.bufAddr.toNat n
      (k = .i64 ∨ k = .i128 → s'.v.toInt = if u < 2 ^ (8 * n - 1) then (u : Int) else (u : Int) - 2 ^ (8 * n)) ∧
      (k = .u64 ∨ k = .u128 → s'.v.toNat = u)

/-- The writes of R229 to R232, for write_uint, write_int, write_uint128 and write_int128, when the value fits: they complete, the first
`N` bytes of the view hold the low `N` bytes of `V`, and nothing else changes. -/
def Obligations.VariableWriteResult : Prop :=
  ∀ (k : WideKind) (t : Tag) (n : Nat) (s : State),
    1 ≤ n → n ≤ k.maxCount → s.bufAddr.toNat + s.bufLen.toNat ≤ 2 ^ 32 → n ≤ s.bufLen.toNat →
    (k = .u64 → s.v.toNat % 2 ^ 64 < 2 ^ (8 * n)) → (k = .u128 → s.v.toNat < 2 ^ (8 * n)) →
    (k = .i64 → -2 ^ (8 * n - 1) ≤ (s.v.setWidth 64).toInt ∧ (s.v.setWidth 64).toInt < 2 ^ (8 * n - 1)) →
    (k = .i128 → -2 ^ (8 * n - 1) ≤ s.v.toInt ∧ s.v.toInt < 2 ^ (8 * n - 1)) →
    ∃ s', exec (variableWrite k t n) s = .next s' ∧ s' = { s with mem := s'.mem } ∧
      (∀ i < n, s'.mem.read (s.bufAddr.toNat + i) = encodedByte (resolve t) n (s.v.toNat % 2 ^ (8 * n)) i) ∧
      ∀ a, a < s.bufAddr.toNat ∨ s.bufAddr.toNat + n ≤ a → s'.mem.read a = s.mem.read a

/-- The fit check (R224, spec/60_exceptions.md R298): with every earlier check passed, a variable-width write faults with `E_FIT` and
writes nothing exactly when `V[T-1:0]`, read as its type, cannot be represented in `N` bytes. -/
def Obligations.FitCheckDecides : Prop :=
  ∀ (k : WideKind) (t : Tag) (n : Nat) (s : State),
    1 ≤ n → n ≤ k.maxCount → s.bufAddr.toNat + s.bufLen.toNat ≤ 2 ^ 32 → n ≤ s.bufLen.toNat →
    let representable : Prop :=
      match k with
      | .u64 => (s.v.setWidth 64).toNat < 2 ^ (8 * n)
      | .u128 => s.v.toNat < 2 ^ (8 * n)
      | .i64 => -2 ^ (8 * n - 1) ≤ (s.v.setWidth 64).toInt ∧ (s.v.setWidth 64).toInt < 2 ^ (8 * n - 1)
      | .i128 => -2 ^ (8 * n - 1) ≤ s.v.toInt ∧ s.v.toInt < 2 ^ (8 * n - 1)
    (¬ representable → exec (variableWrite k t n) s = .next { s with status := { fault := true, err := 7 } }) ∧
    (representable → ∃ s', exec (variableWrite k t n) s = .next s' ∧ s'.status = s.status)

/-- Round trip (R233 law 1): a variable-width write that succeeds, followed by the read of the same type, tag and `N`, leaves in `V` the
value written, extended to 128 bits. -/
def Obligations.VariableWriteThenRead : Prop :=
  ∀ (k : WideKind) (t : Tag) (n : Nat) (s s₁ : State),
    s.status.fault = false → exec (variableWrite k t n) s = .next s₁ → s₁.status.fault = false →
    ∃ s₂, exec (variableRead k t n) s₁ = .next s₂ ∧ s₂.status = s₁.status ∧
      s₂.v = if k.kind.signed then (s.v.setWidth k.kind.bits).signExtend 128 else (s.v.setWidth k.kind.bits).setWidth 128

/-- Full width (R233 law 4): with `N = T/8` each variable-width command is the fixed-width command of its kind. -/
def Obligations.FullWidthIsFixedWidth : Prop :=
  ∀ (t : Tag) (s : State),
    exec (.readUint t 8) s = exec (.readU64 t) s ∧ exec (.readInt t 8) s = exec (.readI64 t) s ∧
    exec (.readUint128 t 16) s = exec (.readU128 t) s ∧ exec (.readInt128 t 16) s = exec (.readI128 t) s ∧
    exec (.writeUint t 8) s = exec (.writeU64 t) s ∧ exec (.writeInt t 8) s = exec (.writeI64 t) s ∧
    exec (.writeUint128 t 16) s = exec (.writeU128 t) s ∧ exec (.writeInt128 t 16) s = exec (.writeI128 t) s

/-- With `N = 1` the tag has no effect (R233 law 5). -/
def Obligations.SingleByteIgnoresTag : Prop :=
  ∀ (k : WideKind) (t t' : Tag) (s : State),
    exec (variableRead k t 1) s = exec (variableRead k t' 1) s ∧ exec (variableWrite k t 1) s = exec (variableWrite k t' 1) s

/-! ## The bulk commands -/

/-- The generic `write_into` (R252), for write_u16_into, write_i16_into, write_u32_into, write_i32_into, write_u64_into, write_i64_into,
write_u128_into, write_i128_into, write_f32_into and write_f64_into: its three faults in order; otherwise it completes, element `e` of
the buffer is the encoding of element `e` of the slice as it was, and nothing outside the buffer view changes. -/
def Obligations.BulkWriteResult : Prop :=
  ∀ (k : Kind) (t : Tag) (s : State),
    let A := s.bufAddr.toNat
    let S := s.slAddr.toNat
    let L := s.slCount.toNat * k.width
    (2 ^ 32 < A + s.bufLen.toNat ∨ 2 ^ 32 < S + L →
      exec (bulkWrite k t) s = .next { s with status := { fault := true, err := 3 } }) ∧
    (A + s.bufLen.toNat ≤ 2 ^ 32 → S + L ≤ 2 ^ 32 → s.bufLen.toNat ≠ L →
      exec (bulkWrite k t) s = .next { s with status := { fault := true, err := 5 } }) ∧
    (A + s.bufLen.toNat ≤ 2 ^ 32 → S + L ≤ 2 ^ 32 → s.bufLen.toNat = L → (0 < L ∧ A < S + L ∧ S < A + L) →
      exec (bulkWrite k t) s = .next { s with status := { fault := true, err := 6 } }) ∧
    (A + s.bufLen.toNat ≤ 2 ^ 32 → S + L ≤ 2 ^ 32 → s.bufLen.toNat = L → ¬ (0 < L ∧ A < S + L ∧ S < A + L) →
      ∃ s', exec (bulkWrite k t) s = .next s' ∧ s' = { s with mem := s'.mem } ∧
        (∀ e < s.slCount.toNat, patternAt (resolve t) s'.mem (A + k.width * e) k.width =
          patternAt (resolve .ne) s.mem (S + k.width * e) k.width) ∧
        ∀ a, a < A ∨ A + L ≤ a → s'.mem.read a = s.mem.read a)

/-- The generic `read_into` (R253), for read_u16_into, read_i16_into, read_u32_into, read_i32_into, read_u64_into, read_i64_into,
read_u128_into, read_i128_into, read_f32_into and read_f64_into: its three faults in order; otherwise it completes, element `e` of the
slice is what element `e` of the buffer decodes to, and nothing outside the value slice changes. -/
def Obligations.BulkReadResult : Prop :=
  ∀ (k : Kind) (t : Tag) (s : State),
    let A := s.bufAddr.toNat
    let S := s.slAddr.toNat
    let L := s.slCount.toNat * k.width
    (2 ^ 32 < A + s.bufLen.toNat ∨ 2 ^ 32 < S + L →
      exec (bulkRead k t) s = .next { s with status := { fault := true, err := 3 } }) ∧
    (A + s.bufLen.toNat ≤ 2 ^ 32 → S + L ≤ 2 ^ 32 → s.bufLen.toNat ≠ L →
      exec (bulkRead k t) s = .next { s with status := { fault := true, err := 5 } }) ∧
    (A + s.bufLen.toNat ≤ 2 ^ 32 → S + L ≤ 2 ^ 32 → s.bufLen.toNat = L → (0 < L ∧ A < S + L ∧ S < A + L) →
      exec (bulkRead k t) s = .next { s with status := { fault := true, err := 6 } }) ∧
    (A + s.bufLen.toNat ≤ 2 ^ 32 → S + L ≤ 2 ^ 32 → s.bufLen.toNat = L → ¬ (0 < L ∧ A < S + L ∧ S < A + L) →
      ∃ s', exec (bulkRead k t) s = .next s' ∧ s' = { s with mem := s'.mem } ∧
        (∀ e < s.slCount.toNat, patternAt (resolve .ne) s'.mem (S + k.width * e) k.width =
          patternAt (resolve t) s.mem (A + k.width * e) k.width) ∧
        ∀ a, a < S ∨ S + L ≤ a → s'.mem.read a = s.mem.read a)

/-- The net effect byte by byte (R259): a copy when the effective order is the native one, else each element's bytes reversed in place,
in both directions. -/
def Obligations.BulkNetEffect : Prop :=
  ∀ (k : Kind) (t : Tag) (s : State),
    let A := s.bufAddr.toNat
    let S := s.slAddr.toNat
    let W := k.width
    let L := s.slCount.toNat * W
    let place := fun i : Nat => if resolve t = resolve .ne then i else W - 1 - i
    A + s.bufLen.toNat ≤ 2 ^ 32 → S + L ≤ 2 ^ 32 → s.bufLen.toNat = L → ¬ (0 < L ∧ A < S + L ∧ S < A + L) →
    ∃ r w, exec (bulkRead k t) s = .next r ∧ exec (bulkWrite k t) s = .next w ∧
      ∀ e < s.slCount.toNat, ∀ i < W,
        r.mem.read (S + W * e + i) = s.mem.read (A + W * e + place i) ∧
        w.mem.read (A + W * e + i) = s.mem.read (S + W * e + place i)

/-- Zero elements (R254). -/
def Obligations.BulkOfZeroElements : Prop :=
  ∀ (k : Kind) (t : Tag) (s : State), s.slCount = 0 →
    (s.bufLen = 0 → exec (bulkRead k t) s = .next s ∧ exec (bulkWrite k t) s = .next s) ∧
    (s.bufLen ≠ 0 →
      let code : BitVec 4 := if 2 ^ 32 < s.bufAddr.toNat + s.bufLen.toNat then 3 else 5
      exec (bulkRead k t) s = .next { s with status := { fault := true, err := code } } ∧
      exec (bulkWrite k t) s = .next { s with status := { fault := true, err := code } })

/-- The fast path (R256): when the effective order is the native order, the whole effect of a bulk command that passes its checks is one
block copy of `L` bytes; the memories are equal as data. -/
def Obligations.FastPathIsBlockCopy : Prop :=
  ∀ (k : Kind) (t : Tag) (s : State), s.mem.wf → resolve t = resolve .ne →
    let A := s.bufAddr.toNat
    let S := s.slAddr.toNat
    let L := s.slCount.toNat * k.width
    A + s.bufLen.toNat ≤ 2 ^ 32 → S + L ≤ 2 ^ 32 → s.bufLen.toNat = L → ¬ (0 < L ∧ A < S + L ∧ S < A + L) →
    exec (bulkRead k t) s = .next { s with mem := s.mem.writeBytes S (s.mem.readBytes A L) } ∧
    exec (bulkWrite k t) s = .next { s with mem := s.mem.writeBytes A (s.mem.readBytes S L) }

/-- Bulk and scalar agree (R258 law 1, first half): after a `write_into`, the scalar read of the same kind and tag, with the view set to
the `W` bytes of element `e`, gives the value of `values[e]`. -/
def Obligations.BulkWriteThenScalarRead : Prop :=
  ∀ (k : Kind) (t : Tag) (s : State),
    let A := s.bufAddr.toNat
    let S := s.slAddr.toNat
    let L := s.slCount.toNat * k.width
    A + s.bufLen.toNat ≤ 2 ^ 32 → S + L ≤ 2 ^ 32 → s.bufLen.toNat = L → ¬ (0 < L ∧ A < S + L ∧ S < A + L) →
    ∃ s₁, exec (bulkWrite k t) s = .next s₁ ∧
      ∀ e < s.slCount.toNat, ∃ s₂,
        exec (fixedRead k t) { s₁ with bufAddr := BitVec.ofNat 32 (A + k.width * e), bufLen := BitVec.ofNat 32 k.width } = .next s₂ ∧
        s₂.status = s.status ∧
        let p := patternAt (resolve .ne) s.mem (S + k.width * e) k.width
        (k.signed = true → s₂.v.toInt = if p < 2 ^ (k.bits - 1) then (p : Int) else (p : Int) - 2 ^ k.bits) ∧
        (k.signed = false → s₂.v.toNat = p)

/-- `read_into` is the inverse of `write_into` (R258 law 1, second half): into any slice region disjoint from the buffer, it restores the
bytes of the original slice. -/
def Obligations.BulkReadInvertsBulkWrite : Prop :=
  ∀ (k : Kind) (t : Tag) (s : State) (d : Word),
    let A := s.bufAddr.toNat
    let S := s.slAddr.toNat
    let D := d.toNat
    let L := s.slCount.toNat * k.width
    A + s.bufLen.toNat ≤ 2 ^ 32 → S + L ≤ 2 ^ 32 → D + L ≤ 2 ^ 32 → s.bufLen.toNat = L →
    ¬ (0 < L ∧ A < S + L ∧ S < A + L) → ¬ (0 < L ∧ A < D + L ∧ D < A + L) →
    ∃ s₁ s₂, exec (bulkWrite k t) s = .next s₁ ∧ exec (bulkRead k t) { s₁ with slAddr := d } = .next s₂ ∧
      ∀ j < L, s₂.mem.read (D + j) = s.mem.read (S + j)

/-- Signedness and floatness do not change bytes (R184 law 3, R258 law 2): kinds of one width write and move the same bytes. -/
def Obligations.KindsOfOneWidthMoveTheSameBytes : Prop :=
  ∀ (k k' : Kind) (t : Tag) (s : State), k.width = k'.width →
    exec (fixedWrite k t) s = exec (fixedWrite k' t) s ∧ exec (bulkRead k t) s = exec (bulkRead k' t) s ∧
      exec (bulkWrite k t) s = exec (bulkWrite k' t) s

/-! ## The faults -/

/-- `E_ILLEGAL` (spec/60_exceptions.md R292): a word with reserved bits set, `OP` 0 or 7..15, `END` 3, an illegal `KIND`, a `KIND` that the
operation does not take, or a stray `N` is no command; executing it faults with code 1 and changes nothing but `STATUS`. -/
def Obligations.IllegalWordFaults : Prop :=
  ∀ (w : Word) (s : State),
    let op := w.toNat % 2 ^ 4
    let kind := w.toNat / 2 ^ 4 % 2 ^ 4
    let endTag := w.toNat / 2 ^ 8 % 2 ^ 2
    let res0 := w.toNat / 2 ^ 10 % 2 ^ 6
    let n := w.toNat / 2 ^ 16 % 2 ^ 5
    let res1 := w.toNat / 2 ^ 21
    res0 ≠ 0 ∨ res1 ≠ 0 ∨ op = 0 ∨ 7 ≤ op ∨ endTag = 3 ∨ kind = 8 ∨ 11 ≤ kind ∨
      (op ∈ [3, 4] ∧ kind ∉ [2, 3, 6, 7]) ∨ (op ∉ [3, 4] ∧ n ≠ 0) →
    (∀ i, decode w ≠ .ok i) ∧ execute w s = .next { s with status := { fault := true, err := 1 } }

/-- `E_WIDTH` (R293): an unsupported `N` faults with code 2 before any other check, in all eight variable-width commands. -/
def Obligations.UnsupportedCountFaults : Prop :=
  ∀ (t : Tag) (n : Nat) (s : State),
    let fault : Host.Outcome State Fault Refusal := .next { s with status := { fault := true, err := 2 } }
    (n = 0 ∨ 8 < n → exec (.readUint t n) s = fault ∧ exec (.readInt t n) s = fault ∧
      exec (.writeUint t n) s = fault ∧ exec (.writeInt t n) s = fault) ∧
    (n = 0 ∨ 16 < n → exec (.readUint128 t n) s = fault ∧ exec (.readInt128 t n) s = fault ∧
      exec (.writeUint128 t n) s = fault ∧ exec (.writeInt128 t n) s = fault)

/-- `E_RANGE` (R294): all 48 commands when the view runs past 2^32, bulk commands also when the slice does; a scalar command does not look
at `SL_ADDR` or `SL_COUNT`. -/
def Obligations.RangeFaults : Prop :=
  ∀ (t : Tag) (s : State),
    let fault : Host.Outcome State Fault Refusal := .next { s with status := { fault := true, err := 3 } }
    (2 ^ 32 < s.bufAddr.toNat + s.bufLen.toNat →
      (∀ k : Kind, exec (fixedRead k t) s = fault ∧ exec (fixedWrite k t) s = fault ∧
        exec (bulkRead k t) s = fault ∧ exec (bulkWrite k t) s = fault) ∧
      ∀ (k : WideKind) (n : Nat), 1 ≤ n → n ≤ k.maxCount →
        exec (variableRead k t n) s = fault ∧ exec (variableWrite k t n) s = fault) ∧
    (∀ k : Kind, 2 ^ 32 < s.slAddr.toNat + s.slCount.toNat * k.width →
      exec (bulkRead k t) s = fault ∧ exec (bulkWrite k t) s = fault) ∧
    ∀ (a c : Word) (i : Instr) (s' : State),
      (∃ k, i = fixedRead k t ∨ i = fixedWrite k t) ∨ (∃ k n, i = variableRead k t n ∨ i = variableWrite k t n) →
      exec i s = .next s' → exec i { s with slAddr := a, slCount := c } = .next { s' with slAddr := a, slCount := c }

/-- `E_SHORT` (R295): the 28 scalar commands on a view shorter than the bytes they need. -/
def Obligations.ShortViewFaults : Prop :=
  ∀ (t : Tag) (s : State), s.bufAddr.toNat + s.bufLen.toNat ≤ 2 ^ 32 →
    let fault : Host.Outcome State Fault Refusal := .next { s with status := { fault := true, err := 4 } }
    (∀ k : Kind, s.bufLen.toNat < k.width → exec (fixedRead k t) s = fault ∧ exec (fixedWrite k t) s = fault) ∧
    ∀ (k : WideKind) (n : Nat), n ≤ k.maxCount → s.bufLen.toNat < n →
      exec (variableRead k t n) s = fault ∧ exec (variableWrite k t n) s = fault

/-- `E_LEN` (R296): the 20 bulk commands, with both regions in range, when `BUF_LEN` is more or less than `SL_COUNT * W`; overlapping regions
make no difference. -/
def Obligations.LengthFaults : Prop :=
  ∀ (k : Kind) (t : Tag) (s : State),
    s.bufAddr.toNat + s.bufLen.toNat ≤ 2 ^ 32 → s.slAddr.toNat + s.slCount.toNat * k.width ≤ 2 ^ 32 →
    s.bufLen.toNat < s.slCount.toNat * k.width ∨ s.slCount.toNat * k.width < s.bufLen.toNat →
    let fault : Host.Outcome State Fault Refusal := .next { s with status := { fault := true, err := 5 } }
    exec (bulkRead k t) s = fault ∧ exec (bulkWrite k t) s = fault

/-- `E_OVERLAP` (R297, spec/20_memory.md R87): a bulk command that passes its earlier checks faults with code 6 exactly when its regions share
a byte: when some address lies in both. -/
def Obligations.OverlapFaults : Prop :=
  ∀ (k : Kind) (t : Tag) (s : State),
    let L := s.slCount.toNat * k.width
    s.bufAddr.toNat + s.bufLen.toNat ≤ 2 ^ 32 → s.slAddr.toNat + L ≤ 2 ^ 32 → s.bufLen.toNat = L →
    let shared : Prop := ∃ a, s.bufAddr.toNat ≤ a ∧ a < s.bufAddr.toNat + L ∧ s.slAddr.toNat ≤ a ∧ a < s.slAddr.toNat + L
    let fault : Host.Outcome State Fault Refusal := .next { s with status := { fault := true, err := 6 } }
    (shared ↔ 0 < L ∧ s.bufAddr.toNat < s.slAddr.toNat + L ∧ s.slAddr.toNat < s.bufAddr.toNat + L) ∧
    (shared → exec (bulkRead k t) s = fault ∧ exec (bulkWrite k t) s = fault) ∧
    (¬ shared → ∃ r w, exec (bulkRead k t) s = .next r ∧ exec (bulkWrite k t) s = .next w ∧
      r.status = s.status ∧ w.status = s.status)

/-- One cause is reported, the first that applies (R299): the word faults with code `c` when `c` applies to it and no lower code does, and it
does not fault when no code applies. -/
def Obligations.FirstCauseIsReported : Prop :=
  ∀ (w : Word) (s : State), s.status.fault = false →
    (∀ c : FaultCode, causeApplies w s c → (∀ d : FaultCode, d.code.toNat < c.code.toNat → ¬ causeApplies w s d) →
      execute w s = .next { s with status := { fault := true, err := c.code } }) ∧
    ((∀ c : FaultCode, ¬ causeApplies w s c) → ∃ s', execute w s = .next s' ∧ s'.status = s.status)

/-- Faults are precise and clean (R301): the state after a fault is the state before the command but for `STATUS`, the code is one of the
seven, and the `fault` line is high. `CMD` is written before the command runs. -/
def Obligations.FaultsAreClean : Prop :=
  ∀ (i : Instr) (s s' : State), s.status.fault = false → exec i s = .next s' → s'.status.fault = true →
    s' = { s with status := s'.status } ∧ 1 ≤ s'.status.err.toNat ∧ s'.status.err.toNat ≤ 7 ∧ s'.faultLine = true

/-- Operand registers keep their values: no command changes a descriptor (spec/10_state.md R33) or `CMD` (spec/40_command_execution.md R155); a
write command and a bulk command do not change `V` (R33); a scalar read command changes no memory (spec/20_memory.md R81); a command that
succeeds leaves `STATUS` (R155). That no command changes `pending`, `responses` and `cuts` is about the model's own fields, its choice (log
entries 2, 3, 6). -/
def Obligations.OperandRegistersKept : Prop :=
  ∀ (i : Instr) (s s' : State), exec i s = .next s' →
    s'.bufAddr = s.bufAddr ∧ s'.bufLen = s.bufLen ∧ s'.slAddr = s.slAddr ∧ s'.slCount = s.slCount ∧ s'.cmd = s.cmd ∧
    s'.pending = s.pending ∧ s'.responses = s.responses ∧ s'.cuts = s.cuts ∧
    ((∀ k t, i ≠ fixedRead k t) → (∀ k t n, i ≠ variableRead k t n) →
      s'.v0 = s.v0 ∧ s'.v1 = s.v1 ∧ s'.v2 = s.v2 ∧ s'.v3 = s.v3) ∧
    ((∃ k t, i = fixedRead k t) ∨ (∃ k t n, i = variableRead k t n) → s'.mem = s.mem) ∧
    (s'.status.fault = false → s'.status = s.status)

/-- Every command is a pure function of its inputs (spec/00_scope.md R7): what it does to `V`, memory and `STATUS` depends on nothing but the
command, the operand registers and memory. -/
def Obligations.CommandsArePure : Prop :=
  ∀ (i : Instr) (s u s' : State),
    s.bufAddr = u.bufAddr → s.bufLen = u.bufLen → s.slAddr = u.slAddr → s.slCount = u.slCount → s.v = u.v → s.mem = u.mem →
    s.status.fault = false → u.status.fault = false → exec i s = .next s' →
    ∃ u', exec i u = .next u' ∧ u'.v = s'.v ∧ u'.mem = s'.mem ∧ u'.status.fault = s'.status.fault ∧
      (s'.status.fault = true → u'.status = s'.status)

/-! ## The host's accesses -/

/-- A step runs the decoded command (spec/40_command_execution.md R151, R153): a write of a legal word to `CMD` of a block that is not frozen
stores the word and runs its command, on the state without that access. That accesses wait in the list `pending` is the model's choice
(log entry 2). -/
def Obligations.StepRunsDecodedCommand : Prop :=
  ∀ (s : State) (w : Word) (rest : List HostAccess) (i : Instr),
    s.pending = .regWrite .word 0x00 w :: rest → s.status.fault = false → decode w = .ok i →
    step s = exec i { s with pending := rest, cmd := w }

/-- A step serves the oldest access (spec/20_memory.md R90: one at a time, in the host's order). That accesses wait in the list `pending`, and
that a reset leaves those behind it, is the model's choice (log entry 2); so is that a reset keeps the list `responses` (log entry 3) and the
counter `cuts` (log entry 6). -/
def Obligations.StepServesOldestAccess : Prop :=
  ∀ (s : State) (rest : List HostAccess),
    let s₀ := { s with pending := rest }
    (∀ offset, offset % 4 = 0 → s.pending = .regRead .word offset :: rest → step s = hostRead offset s₀) ∧
    (∀ offset d, offset % 4 = 0 → s.pending = .regWrite .word offset d :: rest → step s = hostWrite offset d s₀) ∧
    (s.pending = .reset :: rest →
      ∃ s', step s = .next s' ∧ (∀ r : Reg, s'.readReg r = 0) ∧ s'.mem = s.mem ∧ s'.pending = rest ∧
        s'.responses = s.responses ∧ s'.cuts = s.cuts)

/-- `HostRead` (spec/40_command_execution.md R150), frozen or not: the value of the register at the offset, 0 at 0x28 and above; no register
and no byte changes. That the value joins the list `responses` is the model's choice (log entry 3). -/
def Obligations.RegisterReadReturns : Prop :=
  ∀ (s : State) (offset : Nat), offset % 4 = 0 →
    let value : Word :=
      if offset = 0x00 then s.cmd
      else if offset = 0x04 then BitVec.ofNat 32 ((if s.status.fault then 1 else 0) + 16 * s.status.err.toNat)
      else if offset = 0x08 then s.bufAddr
      else if offset = 0x0C then s.bufLen
      else if offset = 0x10 then s.slAddr
      else if offset = 0x14 then s.slCount
      else if offset = 0x18 then s.v0
      else if offset = 0x1C then s.v1
      else if offset = 0x20 then s.v2
      else if offset = 0x24 then s.v3
      else 0
    hostRead offset s = .next { s with responses := s.responses ++ [.register value] }

/-- `HostWrite(offset, data)` (spec/40_command_execution.md R151), with the offset a multiple of 4: ignored while frozen (R152); `CMD` takes the
word and executes it; `STATUS` and the offsets above the map drop the write. -/
def Obligations.RegisterWriteStores : Prop :=
  ∀ (s : State) (offset : Nat) (d : Word), offset % 4 = 0 →
    hostWrite offset d s =
      if s.status.fault then .next s
      else if offset = 0x00 then execute d { s with cmd := d }
      else if offset = 0x08 then .next { s with bufAddr := d }
      else if offset = 0x0C then .next { s with bufLen := d }
      else if offset = 0x10 then .next { s with slAddr := d }
      else if offset = 0x14 then .next { s with slCount := d }
      else if offset = 0x18 then .next { s with v0 := d }
      else if offset = 0x1C then .next { s with v1 := d }
      else if offset = 0x20 then .next { s with v2 := d }
      else if offset = 0x24 then .next { s with v3 := d }
      else .next s

/-- Narrow and misaligned register accesses are refused (R156). That accesses wait in the list `pending` is the model's choice (log entry 2). -/
def Obligations.NarrowAccessRefused : Prop :=
  ∀ (s : State) (size : AccessSize) (offset : Nat) (d : Word) (rest : List HostAccess),
    size ≠ .word ∨ offset % 4 ≠ 0 →
    (s.pending = .regRead size offset :: rest ∨ s.pending = .regWrite size offset d :: rest) →
    step s = .refused .registerAccess

/-- Reset (spec/10_state.md R45): after it every register reads 0, `STATUS.FAULT` and `STATUS.ERR` are 0, the `fault` line is low, memory is
what it was; and the state `State.reset` reads 0 in every register. -/
def Obligations.ResetClearsRegisters : Prop :=
  (∀ r : Reg, State.reset.readReg r = 0) ∧
  ∀ s : State, ∃ s', serve .reset s = .next s' ∧ (∀ r : Reg, s'.readReg r = 0) ∧
    s'.status = { fault := false, err := 0 } ∧ s'.faultLine = false ∧ s'.v = 0 ∧ s'.mem = s.mem

/-- Straight after reset (spec/10_state.md R45, spec/70_reset_and_hazards.md R345) every scalar command faults with `E_SHORT`, or `E_WIDTH` on
a bad `N`, and every bulk command succeeds and moves nothing. -/
def Obligations.CommandsStraightAfterReset : Prop :=
  ∀ (t : Tag) (s : State),
    let z := s.resetBlock
    let short : Host.Outcome State Fault Refusal := .next { z with status := { fault := true, err := 4 } }
    let width : Host.Outcome State Fault Refusal := .next { z with status := { fault := true, err := 2 } }
    (∀ k : Kind, exec (fixedRead k t) z = short ∧ exec (fixedWrite k t) z = short ∧
      exec (bulkRead k t) z = .next z ∧ exec (bulkWrite k t) z = .next z) ∧
    ∀ (k : WideKind) (n : Nat),
      exec (variableRead k t n) z = (if 1 ≤ n ∧ n ≤ k.maxCount then short else width) ∧
      exec (variableWrite k t n) z = (if 1 ≤ n ∧ n ≤ k.maxCount then short else width)

/-- A command cut by an outside reset (spec/70_reset_and_hazards.md R343): the registers take their reset values, and each byte of memory
holds its value from before or the value the command would have written. That the cut is an access of its own and that `cuts` counts it is the
model's choice (log entry 6). -/
def Obligations.CutCommandLeavesOldOrNew : Prop :=
  ∀ (s : State) (w : Word) (rest : List HostAccess), s.pending = .cutCommand w :: rest →
    ∃ done s', hostWrite 0x00 w { s with pending := rest } = .next done ∧ step s = .next s' ∧
      (∀ r : Reg, s'.readReg r = 0) ∧ s'.cuts = s.cuts + 1 ∧
      ∀ a, s'.mem.read a = s.mem.read a ∨ s'.mem.read a = done.mem.read a

/-- The host's own memory accesses (spec/70_reset_and_hazards.md R351 L8): a byte written is there for the next access, no other byte and no
register changes; a read returns the byte. That the byte read joins the list `responses` is the model's choice (log entry 3), and so are the
form of the accesses and the fault at an address of 2^32 or more (log entry 5). -/
def Obligations.HostMemoryAccess : Prop :=
  ∀ (s : State) (a : Nat) (b : Byte) (rest : List HostAccess),
    (a < 2 ^ 32 → s.pending = .memWrite a b :: rest →
      ∃ s', step s = .next s' ∧ s' = { s with pending := rest, mem := s'.mem } ∧ s'.mem.read a = b ∧
        ∀ x, x ≠ a → s'.mem.read x = s.mem.read x) ∧
    (a < 2 ^ 32 → s.pending = .memRead a :: rest →
      step s = .next { s with pending := rest, responses := s.responses ++ [.memory (s.mem.read a)] }) ∧
    (2 ^ 32 ≤ a → (s.pending = .memWrite a b :: rest ∨ s.pending = .memRead a :: rest) → step s = .fault .outsideMemory)

/-- With no access pending the block is idle and holds its registers (spec/60_exceptions.md R311); that the step then answers the same state
is the model's choice (log entry 2). -/
def Obligations.IdleStepHoldsState : Prop :=
  ∀ s : State, s.pending = [] → step s = .next s

/-! ## Whole-machine rules -/

/-- Every step keeps the invariant: memory stays canonical and inside the address space, and `STATUS` keeps a legal value
(spec/10_state.md R35, spec/20_memory.md R70). -/
def Obligations.StepKeepsInvariant : Prop :=
  ∀ s s' : State, s.Inv → step s = .next s' → s'.Inv

/-- The state after reset meets both invariants. -/
def Obligations.ResetMeetsInvariants : Prop :=
  State.reset.Inv ∧ State.reset.faultRecorded

/-- A faulted block always holds its cause (spec/60_exceptions.md R291): whatever accesses follow, re-running the word in `CMD` on the
registers as they stand gives the same fault. -/
def Obligations.StepKeepsFaultRecord : Prop :=
  ∀ s s' : State, s.faultRecorded → step s = .next s' → s'.faultRecorded

/-- The values of `STATUS` (spec/10_state.md R35): 0, or 1 + 16 * code with a code of 1 to 7. -/
def Obligations.StatusWordValues : Prop :=
  ∀ s : State, s.Inv → s.statusWord ∈ [(0x00 : Word), 0x11, 0x21, 0x31, 0x41, 0x51, 0x61, 0x71]

/-- There is no return from a fault (spec/60_exceptions.md R302, spec/40_command_execution.md R152): however many accesses the host makes, short
of a reset or a write of memory by its own means, a frozen block keeps every register, its `STATUS` and every byte of memory. A run takes its
accesses from the list `pending`, the model's choice (log entry 2). -/
def Obligations.FrozenRunsChangeNothing : Prop :=
  ∀ (accesses : List HostAccess) (s s' : State),
    s.status.fault = true → (∀ a ∈ accesses, a.keepsFault = true ∧ a.sparesMemory = true) → run accesses s = .next s' →
    s'.status = s.status ∧ (∀ r : Reg, s'.readReg r = s.readReg r) ∧ s'.mem = s.mem

/-- Where a step can change memory (after spec/70_reset_and_hazards.md R352): if a step that is neither a host memory write nor a cut command
changes the byte at `a`, it ran a legal word written to `CMD` of a block that was not frozen, and `a` lies in the buffer view of a write
command or in the value slice of a `read_into`. The exact `W` or `N` bytes of a scalar write stand in `FixedWriteResult` and
`VariableWriteResult`. That accesses wait in the list `pending` is the model's choice (log entry 2). -/
def Obligations.MemoryChangesOnlyByWriteCommands : Prop :=
  ∀ (s s' : State) (x : HostAccess) (rest : List HostAccess) (a : Nat),
    s.pending = x :: rest → (∀ d b, x ≠ .memWrite d b) → (∀ w, x ≠ .cutCommand w) →
    step s = .next s' → s'.mem.read a ≠ s.mem.read a →
    s.status.fault = false ∧
    ∃ (w : Word) (i : Instr), x = .regWrite .word 0x00 w ∧ decode w = .ok i ∧
      (((∃ k t, i = fixedWrite k t ∨ i = bulkWrite k t) ∨ (∃ k t n, i = variableWrite k t n)) ∧
          s.bufAddr.toNat ≤ a ∧ a < s.bufAddr.toNat + s.bufLen.toNat ∨
        ∃ k t, i = bulkRead k t ∧ s.slAddr.toNat ≤ a ∧ a < s.slAddr.toNat + s.slCount.toNat * k.width)

/-- A descriptor changes only by the host's write to it, and by reset (spec/70_reset_and_hazards.md R348, R352): the engine never changes
one. That accesses wait in the list `pending` is the model's choice (log entry 2). -/
def Obligations.DescriptorsChangeOnlyByTheHost : Prop :=
  ∀ (s s' : State) (x : HostAccess) (rest : List HostAccess) (r : Reg),
    r = .bufAddr ∨ r = .bufLen ∨ r = .slAddr ∨ r = .slCount →
    s.pending = x :: rest → step s = .next s' → s'.readReg r ≠ s.readReg r →
    x = .reset ∨ (∃ w, x = .cutCommand w) ∨ (s.status.fault = false ∧ x = .regWrite .word r.offset (s'.readReg r))
end

