-- ==== Sys2Proof/Laws/State.lean ====
section
/-! SUPPORT. One lemma per field per named update of the state, so that no later proof unfolds a record update. -/

namespace Sys2Proof.Machine

/-! `State.setV` -/

@[simp] theorem State.setV_cmd (s : State) (p : Value) : (s.setV p).cmd = s.cmd := rfl

@[simp] theorem State.setV_status (s : State) (p : Value) : (s.setV p).status = s.status := rfl

@[simp] theorem State.setV_bufAddr (s : State) (p : Value) : (s.setV p).bufAddr = s.bufAddr := rfl

@[simp] theorem State.setV_bufLen (s : State) (p : Value) : (s.setV p).bufLen = s.bufLen := rfl

@[simp] theorem State.setV_slAddr (s : State) (p : Value) : (s.setV p).slAddr = s.slAddr := rfl

@[simp] theorem State.setV_slCount (s : State) (p : Value) : (s.setV p).slCount = s.slCount := rfl

@[simp] theorem State.setV_v0 (s : State) (p : Value) : (s.setV p).v0 = p.extractLsb' 0 32 := rfl

@[simp] theorem State.setV_v1 (s : State) (p : Value) : (s.setV p).v1 = p.extractLsb' 32 32 := rfl

@[simp] theorem State.setV_v2 (s : State) (p : Value) : (s.setV p).v2 = p.extractLsb' 64 32 := rfl

@[simp] theorem State.setV_v3 (s : State) (p : Value) : (s.setV p).v3 = p.extractLsb' 96 32 := rfl

@[simp] theorem State.setV_mem (s : State) (p : Value) : (s.setV p).mem = s.mem := rfl

@[simp] theorem State.setV_pending (s : State) (p : Value) : (s.setV p).pending = s.pending := rfl

@[simp] theorem State.setV_responses (s : State) (p : Value) : (s.setV p).responses = s.responses := rfl

@[simp] theorem State.setV_cuts (s : State) (p : Value) : (s.setV p).cuts = s.cuts := rfl

/-! `State.store` -/

@[simp] theorem State.store_cmd (s : State) (addr : Nat) (bytes : List Byte) : (s.store addr bytes).cmd = s.cmd := rfl

@[simp] theorem State.store_status (s : State) (addr : Nat) (bytes : List Byte) : (s.store addr bytes).status = s.status := rfl

@[simp] theorem State.store_bufAddr (s : State) (addr : Nat) (bytes : List Byte) : (s.store addr bytes).bufAddr = s.bufAddr := rfl

@[simp] theorem State.store_bufLen (s : State) (addr : Nat) (bytes : List Byte) : (s.store addr bytes).bufLen = s.bufLen := rfl

@[simp] theorem State.store_slAddr (s : State) (addr : Nat) (bytes : List Byte) : (s.store addr bytes).slAddr = s.slAddr := rfl

@[simp] theorem State.store_slCount (s : State) (addr : Nat) (bytes : List Byte) : (s.store addr bytes).slCount = s.slCount := rfl

@[simp] theorem State.store_v0 (s : State) (addr : Nat) (bytes : List Byte) : (s.store addr bytes).v0 = s.v0 := rfl

@[simp] theorem State.store_v1 (s : State) (addr : Nat) (bytes : List Byte) : (s.store addr bytes).v1 = s.v1 := rfl

@[simp] theorem State.store_v2 (s : State) (addr : Nat) (bytes : List Byte) : (s.store addr bytes).v2 = s.v2 := rfl

@[simp] theorem State.store_v3 (s : State) (addr : Nat) (bytes : List Byte) : (s.store addr bytes).v3 = s.v3 := rfl

@[simp] theorem State.store_mem (s : State) (addr : Nat) (bytes : List Byte) : (s.store addr bytes).mem = s.mem.writeBytes addr bytes := rfl

@[simp] theorem State.store_pending (s : State) (addr : Nat) (bytes : List Byte) : (s.store addr bytes).pending = s.pending := rfl

@[simp] theorem State.store_responses (s : State) (addr : Nat) (bytes : List Byte) : (s.store addr bytes).responses = s.responses := rfl

@[simp] theorem State.store_cuts (s : State) (addr : Nat) (bytes : List Byte) : (s.store addr bytes).cuts = s.cuts := rfl

/-! `State.raise` -/

@[simp] theorem State.raise_cmd (s : State) (c : FaultCode) : (s.raise c).cmd = s.cmd := rfl

@[simp] theorem State.raise_status (s : State) (c : FaultCode) : (s.raise c).status = Status.latched c := rfl

@[simp] theorem State.raise_bufAddr (s : State) (c : FaultCode) : (s.raise c).bufAddr = s.bufAddr := rfl

@[simp] theorem State.raise_bufLen (s : State) (c : FaultCode) : (s.raise c).bufLen = s.bufLen := rfl

@[simp] theorem State.raise_slAddr (s : State) (c : FaultCode) : (s.raise c).slAddr = s.slAddr := rfl

@[simp] theorem State.raise_slCount (s : State) (c : FaultCode) : (s.raise c).slCount = s.slCount := rfl

@[simp] theorem State.raise_v0 (s : State) (c : FaultCode) : (s.raise c).v0 = s.v0 := rfl

@[simp] theorem State.raise_v1 (s : State) (c : FaultCode) : (s.raise c).v1 = s.v1 := rfl

@[simp] theorem State.raise_v2 (s : State) (c : FaultCode) : (s.raise c).v2 = s.v2 := rfl

@[simp] theorem State.raise_v3 (s : State) (c : FaultCode) : (s.raise c).v3 = s.v3 := rfl

@[simp] theorem State.raise_mem (s : State) (c : FaultCode) : (s.raise c).mem = s.mem := rfl

@[simp] theorem State.raise_pending (s : State) (c : FaultCode) : (s.raise c).pending = s.pending := rfl

@[simp] theorem State.raise_responses (s : State) (c : FaultCode) : (s.raise c).responses = s.responses := rfl

@[simp] theorem State.raise_cuts (s : State) (c : FaultCode) : (s.raise c).cuts = s.cuts := rfl

/-! `State.resetBlock` -/

@[simp] theorem State.resetBlock_cmd (s : State)  : (s.resetBlock).cmd = 0 := rfl

@[simp] theorem State.resetBlock_status (s : State)  : (s.resetBlock).status = Status.clear := rfl

@[simp] theorem State.resetBlock_bufAddr (s : State)  : (s.resetBlock).bufAddr = 0 := rfl

@[simp] theorem State.resetBlock_bufLen (s : State)  : (s.resetBlock).bufLen = 0 := rfl

@[simp] theorem State.resetBlock_slAddr (s : State)  : (s.resetBlock).slAddr = 0 := rfl

@[simp] theorem State.resetBlock_slCount (s : State)  : (s.resetBlock).slCount = 0 := rfl

@[simp] theorem State.resetBlock_v0 (s : State)  : (s.resetBlock).v0 = 0 := rfl

@[simp] theorem State.resetBlock_v1 (s : State)  : (s.resetBlock).v1 = 0 := rfl

@[simp] theorem State.resetBlock_v2 (s : State)  : (s.resetBlock).v2 = 0 := rfl

@[simp] theorem State.resetBlock_v3 (s : State)  : (s.resetBlock).v3 = 0 := rfl

@[simp] theorem State.resetBlock_mem (s : State)  : (s.resetBlock).mem = s.mem := rfl

@[simp] theorem State.resetBlock_pending (s : State)  : (s.resetBlock).pending = s.pending := rfl

@[simp] theorem State.resetBlock_responses (s : State)  : (s.resetBlock).responses = s.responses := rfl

@[simp] theorem State.resetBlock_cuts (s : State)  : (s.resetBlock).cuts = s.cuts := rfl

/-! `State.offerCommand` -/

@[simp] theorem State.offerCommand_cmd (s : State) (w : Word) : (s.offerCommand w).cmd = s.cmd := rfl

@[simp] theorem State.offerCommand_status (s : State) (w : Word) : (s.offerCommand w).status = s.status := rfl

@[simp] theorem State.offerCommand_bufAddr (s : State) (w : Word) : (s.offerCommand w).bufAddr = s.bufAddr := rfl

@[simp] theorem State.offerCommand_bufLen (s : State) (w : Word) : (s.offerCommand w).bufLen = s.bufLen := rfl

@[simp] theorem State.offerCommand_slAddr (s : State) (w : Word) : (s.offerCommand w).slAddr = s.slAddr := rfl

@[simp] theorem State.offerCommand_slCount (s : State) (w : Word) : (s.offerCommand w).slCount = s.slCount := rfl

@[simp] theorem State.offerCommand_v0 (s : State) (w : Word) : (s.offerCommand w).v0 = s.v0 := rfl

@[simp] theorem State.offerCommand_v1 (s : State) (w : Word) : (s.offerCommand w).v1 = s.v1 := rfl

@[simp] theorem State.offerCommand_v2 (s : State) (w : Word) : (s.offerCommand w).v2 = s.v2 := rfl

@[simp] theorem State.offerCommand_v3 (s : State) (w : Word) : (s.offerCommand w).v3 = s.v3 := rfl

@[simp] theorem State.offerCommand_mem (s : State) (w : Word) : (s.offerCommand w).mem = s.mem := rfl

@[simp] theorem State.offerCommand_pending (s : State) (w : Word) : (s.offerCommand w).pending = .regWrite .word 0x00 w :: s.pending := rfl

@[simp] theorem State.offerCommand_responses (s : State) (w : Word) : (s.offerCommand w).responses = s.responses := rfl

@[simp] theorem State.offerCommand_cuts (s : State) (w : Word) : (s.offerCommand w).cuts = s.cuts := rfl

/-! `State.withFetchWord` -/

@[simp] theorem State.withFetchWord_cmd (s : State) (nbits w : Nat) : (s.withFetchWord nbits w).cmd = s.cmd := rfl

@[simp] theorem State.withFetchWord_status (s : State) (nbits w : Nat) : (s.withFetchWord nbits w).status = s.status := rfl

@[simp] theorem State.withFetchWord_bufAddr (s : State) (nbits w : Nat) : (s.withFetchWord nbits w).bufAddr = s.bufAddr := rfl

@[simp] theorem State.withFetchWord_bufLen (s : State) (nbits w : Nat) : (s.withFetchWord nbits w).bufLen = s.bufLen := rfl

@[simp] theorem State.withFetchWord_slAddr (s : State) (nbits w : Nat) : (s.withFetchWord nbits w).slAddr = s.slAddr := rfl

@[simp] theorem State.withFetchWord_slCount (s : State) (nbits w : Nat) : (s.withFetchWord nbits w).slCount = s.slCount := rfl

@[simp] theorem State.withFetchWord_v0 (s : State) (nbits w : Nat) : (s.withFetchWord nbits w).v0 = s.v0 := rfl

@[simp] theorem State.withFetchWord_v1 (s : State) (nbits w : Nat) : (s.withFetchWord nbits w).v1 = s.v1 := rfl

@[simp] theorem State.withFetchWord_v2 (s : State) (nbits w : Nat) : (s.withFetchWord nbits w).v2 = s.v2 := rfl

@[simp] theorem State.withFetchWord_v3 (s : State) (nbits w : Nat) : (s.withFetchWord nbits w).v3 = s.v3 := rfl

@[simp] theorem State.withFetchWord_mem (s : State) (nbits w : Nat) : (s.withFetchWord nbits w).mem = s.mem := rfl

@[simp] theorem State.withFetchWord_pending (s : State) (nbits w : Nat) : (s.withFetchWord nbits w).pending = .regWrite .word 0x00 (tableWord nbits w) :: s.pending := rfl

@[simp] theorem State.withFetchWord_responses (s : State) (nbits w : Nat) : (s.withFetchWord nbits w).responses = s.responses := rfl

@[simp] theorem State.withFetchWord_cuts (s : State) (nbits w : Nat) : (s.withFetchWord nbits w).cuts = s.cuts := rfl

/-! `State.writeReg`: what a register store leaves alone, and what it does register by register -/

@[simp] theorem State.writeReg_status (s : State) (r : Reg) (d : Word) : (s.writeReg r d).status = s.status := by
  cases r <;> rfl

@[simp] theorem State.writeReg_mem (s : State) (r : Reg) (d : Word) : (s.writeReg r d).mem = s.mem := by
  cases r <;> rfl

@[simp] theorem State.writeReg_pending (s : State) (r : Reg) (d : Word) : (s.writeReg r d).pending = s.pending := by
  cases r <;> rfl

@[simp] theorem State.writeReg_responses (s : State) (r : Reg) (d : Word) : (s.writeReg r d).responses = s.responses := by
  cases r <;> rfl

@[simp] theorem State.writeReg_cuts (s : State) (r : Reg) (d : Word) : (s.writeReg r d).cuts = s.cuts := by
  cases r <;> rfl

@[simp] theorem State.writeReg_at_cmd (s : State) (d : Word) : s.writeReg .cmd d = { s with cmd := d } := rfl

@[simp] theorem State.writeReg_at_status (s : State) (d : Word) : s.writeReg .status d = s := rfl

@[simp] theorem State.writeReg_at_bufAddr (s : State) (d : Word) : s.writeReg .bufAddr d = { s with bufAddr := d } := rfl

@[simp] theorem State.writeReg_at_bufLen (s : State) (d : Word) : s.writeReg .bufLen d = { s with bufLen := d } := rfl

@[simp] theorem State.writeReg_at_slAddr (s : State) (d : Word) : s.writeReg .slAddr d = { s with slAddr := d } := rfl

@[simp] theorem State.writeReg_at_slCount (s : State) (d : Word) : s.writeReg .slCount d = { s with slCount := d } := rfl

@[simp] theorem State.writeReg_at_v0 (s : State) (d : Word) : s.writeReg .v0 d = { s with v0 := d } := rfl

@[simp] theorem State.writeReg_at_v1 (s : State) (d : Word) : s.writeReg .v1 d = { s with v1 := d } := rfl

@[simp] theorem State.writeReg_at_v2 (s : State) (d : Word) : s.writeReg .v2 d = { s with v2 := d } := rfl

@[simp] theorem State.writeReg_at_v3 (s : State) (d : Word) : s.writeReg .v3 d = { s with v3 := d } := rfl

/-! `V` and the read of a register -/

/-- `V` is read back as it was written (R32). -/
@[simp] theorem State.v_setV (s : State) (p : Value) : (s.setV p).v = p := by
  simp only [State.v, State.setV_v0, State.setV_v1, State.setV_v2, State.setV_v3]
  apply BitVec.eq_of_getLsbD_eq
  intro i hi
  simp only [BitVec.getLsbD_append, BitVec.getLsbD_extractLsb']
  by_cases h0 : i < 32
  · simp [h0]
  · by_cases h1 : i < 64
    · have : i - 32 < 32 := by omega
      simp [h0, this, show 32 + (i - 32) = i by omega]
    · by_cases h2 : i < 96
      · have a : ¬ i - 32 < 32 := by omega
        have b : i - 32 - 32 < 32 := by omega
        simp [h0, a, b, show 64 + (i - 32 - 32) = i by omega]
      · have a : ¬ i - 32 < 32 := by omega
        have b : ¬ i - 32 - 32 < 32 := by omega
        have c : i - 32 - 32 - 32 < 32 := by omega
        simp [h0, a, b, c, show 96 + (i - 32 - 32 - 32) = i by omega]

@[simp] theorem State.v_store (s : State) (addr : Nat) (bytes : List Byte) : (s.store addr bytes).v = s.v := rfl

@[simp] theorem State.v_raise (s : State) (c : FaultCode) : (s.raise c).v = s.v := rfl

@[simp] theorem State.operand_store (s : State) (addr : Nat) (bytes : List Byte) (t : Nat) :
    (s.store addr bytes).operand t = s.operand t := rfl

@[simp] theorem State.frozen_eq (s : State) : s.frozen = s.status.fault := rfl

@[simp] theorem State.faultLine_eq (s : State) : s.faultLine = s.status.fault := rfl

@[simp] theorem Status.latched_fault (c : FaultCode) : (Status.latched c).fault = true := rfl

@[simp] theorem Status.latched_err (c : FaultCode) : (Status.latched c).err = c.code := rfl

@[simp] theorem Status.clear_fault : Status.clear.fault = false := rfl

@[simp] theorem Status.clear_err : Status.clear.err = 0 := rfl

end Sys2Proof.Machine
end

