-- ==== Sys2Proof/Laws/Memory.lean ====
section
/-! SUPPORT. What the memory operations do: read after write, what a write leaves alone, and that every operation keeps the canonical
form. -/

namespace Sys2Proof.Machine

/-! Reading one byte -/

@[simp] theorem Memory.read_nil (a : Nat) : Memory.read [] a = Memory.unlisted := rfl

theorem Memory.read_cons (k : Nat) (b : Byte) (m : Memory) (a : Nat) :
    Memory.read ((k, b) :: m) a = if k = a then b else Memory.read m a := rfl

theorem Memory.read_erase_same (m : Memory) (a : Nat) : (Memory.erase m a).read a = Memory.unlisted := by
  induction m with
  | nil => rfl
  | cons c m ih =>
    obtain ⟨k, b⟩ := c
    by_cases h : k = a
    · simpa [Memory.erase, h] using ih
    · have : Memory.erase ((k, b) :: m) a = (k, b) :: Memory.erase m a := by simp [Memory.erase, h]
      rw [this, Memory.read_cons, if_neg h, ih]

theorem Memory.read_erase_other {m : Memory} {a x : Nat} (hx : x ≠ a) : (Memory.erase m a).read x = m.read x := by
  induction m with
  | nil => rfl
  | cons c m ih =>
    obtain ⟨k, b⟩ := c
    by_cases h : k = a
    · have : Memory.erase ((k, b) :: m) a = Memory.erase m a := by simp [Memory.erase, h]
      rw [this, ih, Memory.read_cons, if_neg (by omega)]
    · have : Memory.erase ((k, b) :: m) a = (k, b) :: Memory.erase m a := by simp [Memory.erase, h]
      rw [this, Memory.read_cons, Memory.read_cons, ih]

theorem Memory.erase_no_key (m : Memory) (a : Nat) : ∀ c ∈ Memory.erase m a, c.1 ≠ a := by
  intro c hc
  simpa [Memory.erase] using (List.mem_filter.mp hc).2

theorem Memory.read_insert_same {m : Memory} {a : Nat} {b : Byte} (h : ∀ c ∈ m, c.1 ≠ a) :
    (Memory.insert m a b).read a = b := by
  induction m with
  | nil => simp [Memory.insert, Memory.read]
  | cons c m ih =>
    obtain ⟨k, v⟩ := c
    have hk : k ≠ a := h (k, v) (by simp)
    by_cases hlt : a < k
    · simp [Memory.insert, hlt, Memory.read]
    · simp only [Memory.insert, hlt, if_false, Memory.read_cons, hk]
      exact ih fun c hc => h c (List.mem_cons_of_mem _ hc)

theorem Memory.read_insert_other {m : Memory} {a x : Nat} {b : Byte} (hx : x ≠ a) :
    (Memory.insert m a b).read x = m.read x := by
  induction m with
  | nil => simp [Memory.insert, Memory.read_cons, Ne.symm hx]
  | cons c m ih =>
    obtain ⟨k, v⟩ := c
    by_cases hlt : a < k
    · simp only [Memory.insert, hlt, if_true]
      rw [Memory.read_cons a, if_neg (Ne.symm hx)]
    · simp only [Memory.insert, hlt, if_false, Memory.read_cons, ih]

/-- A byte is read back as it was written. -/
@[simp] theorem Memory.read_write_same (m : Memory) (a : Nat) (b : Byte) : (m.write a b).read a = b := by
  unfold Memory.write
  split
  · next h => rw [Memory.read_erase_same, h]
  · exact Memory.read_insert_same (Memory.erase_no_key m a)

/-- A write leaves every other byte alone. -/
theorem Memory.read_write_other {m : Memory} {a x : Nat} {b : Byte} (hx : x ≠ a) : (m.write a b).read x = m.read x := by
  unfold Memory.write
  split
  · exact Memory.read_erase_other hx
  · rw [Memory.read_insert_other hx, Memory.read_erase_other hx]

/-- What a write of one byte does to a read of one byte. -/
theorem Memory.read_write (m : Memory) (a x : Nat) (b : Byte) :
    (m.write a b).read x = if x = a then b else m.read x := by
  split
  · next h => rw [h, Memory.read_write_same]
  · next h => exact Memory.read_write_other h

/-! Reading and writing byte sequences -/

@[simp] theorem Memory.readBytes_length (m : Memory) (a n : Nat) : (m.readBytes a n).length = n := by
  induction n generalizing a with
  | zero => rfl
  | succ n ih => simp [Memory.readBytes, ih]

/-- `MemRead(addr, n)` gives `b[i] = Mem[addr + i]` (R71). -/
theorem Memory.readBytes_getElem? (m : Memory) (a n i : Nat) (h : i < n) :
    (m.readBytes a n)[i]? = some (m.read (a + i)) := by
  induction n generalizing a i with
  | zero => omega
  | succ n ih =>
    cases i with
    | zero => simp [Memory.readBytes]
    | succ i => simpa [Memory.readBytes, show a + 1 + i = a + (i + 1) by omega] using ih (a + 1) i (by omega)

/-- Two memories that agree on a region give the same bytes there. -/
theorem Memory.readBytes_congr {m m' : Memory} {a n : Nat} (h : ∀ i < n, m.read (a + i) = m'.read (a + i)) :
    m.readBytes a n = m'.readBytes a n := by
  induction n generalizing a with
  | zero => rfl
  | succ n ih =>
    simp only [Memory.readBytes]
    rw [show m.read a = m'.read a from h 0 (by omega),
      ih fun i hi => by simpa [show a + 1 + i = a + (i + 1) by omega] using h (i + 1) (by omega)]

/-- `MemWrite` changes no byte outside its region (R72). -/
theorem Memory.read_writeBytes_outside {m : Memory} {a x : Nat} {bytes : List Byte}
    (h : x < a ∨ a + bytes.length ≤ x) : (m.writeBytes a bytes).read x = m.read x := by
  induction bytes generalizing m a with
  | nil => rfl
  | cons b rest ih =>
    simp only [List.length_cons] at h
    simp only [Memory.writeBytes]
    rw [ih (by omega), Memory.read_write_other (by omega)]

/-- `MemWrite` sets `Mem[addr + i] <- b[i]` (R72). -/
theorem Memory.read_writeBytes_inside {m : Memory} {a i : Nat} {bytes : List Byte} (h : i < bytes.length) :
    (m.writeBytes a bytes).read (a + i) = bytes[i] := by
  induction bytes generalizing m a i with
  | nil => simp at h
  | cons b rest ih =>
    simp only [Memory.writeBytes]
    cases i with
    | zero => rw [Memory.read_writeBytes_outside (by omega)]; simp
    | succ i =>
      rw [show a + (i + 1) = a + 1 + i by omega, ih (by simpa using h)]
      simp

/-! The canonical form -/

theorem Memory.wf_nil : Memory.wf [] := by simp [Memory.wf]

theorem Memory.wf_erase {m : Memory} (h : m.wf) (a : Nat) : (Memory.erase m a).wf :=
  ⟨h.1.filter _, fun c hc => h.2 c (List.mem_filter.mp hc).1⟩

theorem Memory.mem_insert {m : Memory} {a : Nat} {b : Byte} {c : Host.Cell} :
    c ∈ Memory.insert m a b ↔ c = (a, b) ∨ c ∈ m := by
  induction m with
  | nil => simp [Memory.insert]
  | cons d m ih =>
    obtain ⟨k, v⟩ := d
    by_cases hlt : a < k
    · simp [Memory.insert, hlt]
    · simp only [Memory.insert, hlt, if_false, List.mem_cons, ih]
      tauto

theorem Memory.wf_insert {m : Memory} {a : Nat} {b : Byte} (h : m.wf) (hk : ∀ c ∈ m, c.1 ≠ a) (hb : b ≠ Memory.unlisted)
    (ha : a < memSize) : (Memory.insert m a b).wf := by
  refine ⟨?_, fun c hc => ?_⟩
  · have hs := h.1
    clear h
    induction m with
    | nil => simp [Memory.insert]
    | cons d m ih =>
      obtain ⟨k, v⟩ := d
      have hne : k ≠ a := hk (k, v) (by simp)
      rw [List.pairwise_cons] at hs
      by_cases hlt : a < k
      · simp only [Memory.insert, hlt, if_true, List.pairwise_cons, List.mem_cons]
        refine ⟨?_, hs⟩
        rintro c (rfl | hc)
        · exact hlt
        · exact lt_trans hlt (hs.1 c hc)
      · simp only [Memory.insert, hlt, if_false, List.pairwise_cons]
        refine ⟨fun c hc => ?_, ih (fun c hc => hk c (List.mem_cons_of_mem _ hc)) hs.2⟩
        rcases Memory.mem_insert.mp hc with rfl | hc
        · show k < a
          omega
        · exact hs.1 c hc
  · rcases Memory.mem_insert.mp hc with rfl | hc
    · exact ⟨hb, ha⟩
    · exact h.2 c hc

/-- Writing a byte at an address that exists keeps the canonical form. -/
theorem Memory.wf_write {m : Memory} {a : Nat} (h : m.wf) (ha : a < memSize) (b : Byte) : (m.write a b).wf := by
  unfold Memory.write
  split
  · exact Memory.wf_erase h a
  · next hb => exact Memory.wf_insert (Memory.wf_erase h a) (Memory.erase_no_key m a) hb ha

/-- Writing bytes inside the address space keeps the canonical form. -/
theorem Memory.wf_writeBytes {m : Memory} {a : Nat} {bytes : List Byte} (h : m.wf) (ha : a + bytes.length ≤ memSize) :
    (m.writeBytes a bytes).wf := by
  induction bytes generalizing m a with
  | nil => exact h
  | cons b rest ih =>
    simp only [List.length_cons] at ha
    exact ih (Memory.wf_write h (by omega) b) (by omega)

theorem Memory.mix_fold_wf (keep : Nat → Bool) (new : Memory) (cells m : Memory) (h : m.wf)
    (hc : ∀ c ∈ cells, c.1 < memSize) :
    (cells.foldl (fun m c => if keep c.1 then m else m.write c.1 (new.read c.1)) m).wf := by
  induction cells generalizing m with
  | nil => exact h
  | cons c cells ih =>
    refine ih _ ?_ fun d hd => hc d (List.mem_cons_of_mem _ hd)
    show Memory.wf (if keep c.1 then m else m.write c.1 (new.read c.1))
    split
    · exact h
    · exact Memory.wf_write h (hc c (by simp)) _

/-- Mixing two memories in canonical form gives one in canonical form. -/
theorem Memory.wf_mix (keep : Nat → Bool) {old new : Memory} (ho : old.wf) (hn : new.wf) : (Memory.mix keep old new).wf := by
  refine Memory.mix_fold_wf keep new _ old ho fun c hc => ?_
  rcases List.mem_append.mp hc with hc | hc
  · exact (ho.2 c hc).2
  · exact (hn.2 c hc).2

theorem Memory.read_of_not_listed {m : Memory} {a : Nat} (h : ∀ c ∈ m, c.1 ≠ a) : m.read a = Memory.unlisted := by
  induction m with
  | nil => rfl
  | cons c m ih =>
    obtain ⟨k, b⟩ := c
    rw [Memory.read_cons, if_neg (h (k, b) (by simp)), ih fun c hc => h c (List.mem_cons_of_mem _ hc)]

theorem Memory.read_mix_fold (keep : Nat → Bool) (new : Memory) (cells m : Memory) (a : Nat) :
    (cells.foldl (fun m c => if keep c.1 then m else m.write c.1 (new.read c.1)) m).read a =
      if keep a = false ∧ ∃ c ∈ cells, c.1 = a then new.read a else m.read a := by
  induction cells generalizing m with
  | nil => simp
  | cons c cells ih =>
    rw [List.foldl_cons, ih]
    by_cases hk : keep a = true
    · by_cases hkc : keep c.1 = true
      · simp [hk, hkc]
      · have hne : a ≠ c.1 := fun h => hkc (h ▸ hk)
        simp [hk, hkc, Memory.read_write_other hne]
    · have hk' : keep a = false := by simpa using hk
      by_cases hca : c.1 = a
      · subst hca
        simp [hk']
      · have hne : a ≠ c.1 := Ne.symm hca
        have : (if keep c.1 = true then m else m.write c.1 (new.read c.1)).read a = m.read a := by
          split
          · rfl
          · exact Memory.read_write_other hne
        simp [hk', this, hca]

/-- A mixed memory reads as `old` where `keep` says so and as `new` elsewhere. -/
theorem Memory.read_mix (keep : Nat → Bool) (old new : Memory) (a : Nat) :
    (Memory.mix keep old new).read a = if keep a then old.read a else new.read a := by
  unfold Memory.mix
  rw [Memory.read_mix_fold]
  by_cases hk : keep a = true
  · simp [hk]
  · have hk' : keep a = false := by simpa using hk
    by_cases hl : ∃ c ∈ old ++ new, c.1 = a
    · rw [if_pos ⟨hk', hl⟩, hk']
      rfl
    · have h' : ∀ c ∈ old ++ new, c.1 ≠ a := fun c hc h => hl ⟨c, hc, h⟩
      have ho := Memory.read_of_not_listed fun c hc => h' c (List.mem_append_left _ hc)
      have hn := Memory.read_of_not_listed fun c hc => h' c (List.mem_append_right _ hc)
      simp [hk', ho, hn]

theorem Memory.wf_tail {c : Host.Cell} {m : Memory} (h : Memory.wf (c :: m)) : Memory.wf m :=
  ⟨(List.pairwise_cons.mp h.1).2, fun d hd => h.2 d (List.mem_cons_of_mem _ hd)⟩

/-- Two memories in canonical form that read the same everywhere are the same data. -/
theorem Memory.ext_of_read {m m' : Memory} (h : m.wf) (h' : m'.wf) (hr : ∀ a, m.read a = m'.read a) : m = m' := by
  have low : ∀ {k : Nat} {b : Byte} {n : Memory}, Memory.wf ((k, b) :: n) → ∀ x ≤ k, n.read x = Memory.unlisted :=
    fun hw x hx => Memory.read_of_not_listed fun d hd he => by
      have := (List.pairwise_cons.mp hw.1).1 d hd
      simp only at this
      omega
  induction m generalizing m' with
  | nil =>
    cases m' with
    | nil => rfl
    | cons d m' =>
      obtain ⟨k, b⟩ := d
      have := hr k
      rw [Memory.read_nil, Memory.read_cons, if_pos rfl] at this
      exact absurd this.symm (h'.2 (k, b) (by simp)).1
  | cons c m ih =>
    obtain ⟨k, b⟩ := c
    have hb : b ≠ Memory.unlisted := (h.2 (k, b) (by simp)).1
    cases m' with
    | nil =>
      have := hr k
      rw [Memory.read_nil, Memory.read_cons, if_pos rfl] at this
      exact absurd this hb
    | cons d m' =>
      obtain ⟨k', b'⟩ := d
      have hb' : b' ≠ Memory.unlisted := (h'.2 (k', b') (by simp)).1
      have hk : k = k' := by
        rcases lt_trichotomy k k' with hlt | he | hlt
        · have := hr k
          rw [Memory.read_cons, if_pos rfl, Memory.read_cons, if_neg (by omega), low h' k (by omega)] at this
          exact absurd this hb
        · exact he
        · have := hr k'
          rw [Memory.read_cons k', if_pos rfl, Memory.read_cons, if_neg (by omega), low h k' (by omega)] at this
          exact absurd this.symm hb'
      subst hk
      have hbb : b = b' := by simpa [Memory.read_cons] using hr k
      subst hbb
      congr 1
      refine ih (Memory.wf_tail h) (Memory.wf_tail h') fun a => ?_
      by_cases hak : k = a
      · rw [low h a (by omega), low h' a (by omega)]
      · simpa [Memory.read_cons, hak] using hr a

end Sys2Proof.Machine
end

