-- ==== Sys2Proof/Laws/Ops.lean ====
section
/-! SUPPORT. What each shared operation can do, said once: the outcomes of the six generic commands, of a command word, and of a host
access. -/

namespace Sys2Proof.Machine

/-! The 48 commands by their six operations -/

@[simp] theorem exec_fixedRead (k : Kind) (t : Tag) (s : State) : exec (fixedRead k t) s = readFixed k t s := by
  cases k <;> rfl

@[simp] theorem exec_fixedWrite (k : Kind) (t : Tag) (s : State) : exec (fixedWrite k t) s = writeFixed k t s := by
  cases k <;> rfl

@[simp] theorem exec_variableRead (k : WideKind) (t : Tag) (n : Nat) (s : State) :
    exec (variableRead k t n) s = readVariable k t n s := by
  cases k <;> rfl

@[simp] theorem exec_variableWrite (k : WideKind) (t : Tag) (n : Nat) (s : State) :
    exec (variableWrite k t n) s = writeVariable k t n s := by
  cases k <;> rfl

@[simp] theorem exec_bulkRead (k : Kind) (t : Tag) (s : State) : exec (bulkRead k t) s = readBulk k t s := by
  cases k <;> rfl

@[simp] theorem exec_bulkWrite (k : Kind) (t : Tag) (s : State) : exec (bulkWrite k t) s = writeBulk k t s := by
  cases k <;> rfl

/-- Every command is a row of one of the six operations. -/
theorem Instr.by_operation (i : Instr) :
    (∃ k t, i = fixedRead k t) ∨ (∃ k t, i = fixedWrite k t) ∨ (∃ k t n, i = variableRead k t n) ∨
      (∃ k t n, i = variableWrite k t n) ∨ (∃ k t, i = bulkRead k t) ∨ (∃ k t, i = bulkWrite k t) := by
  cases i with
  | readU16 t => exact .inl ⟨.u16, t, rfl⟩
  | readI16 t => exact .inl ⟨.i16, t, rfl⟩
  | readU32 t => exact .inl ⟨.u32, t, rfl⟩
  | readI32 t => exact .inl ⟨.i32, t, rfl⟩
  | readU64 t => exact .inl ⟨.u64, t, rfl⟩
  | readI64 t => exact .inl ⟨.i64, t, rfl⟩
  | readU128 t => exact .inl ⟨.u128, t, rfl⟩
  | readI128 t => exact .inl ⟨.i128, t, rfl⟩
  | readF32 t => exact .inl ⟨.f32, t, rfl⟩
  | readF64 t => exact .inl ⟨.f64, t, rfl⟩
  | writeU16 t => exact .inr (.inl ⟨.u16, t, rfl⟩)
  | writeI16 t => exact .inr (.inl ⟨.i16, t, rfl⟩)
  | writeU32 t => exact .inr (.inl ⟨.u32, t, rfl⟩)
  | writeI32 t => exact .inr (.inl ⟨.i32, t, rfl⟩)
  | writeU64 t => exact .inr (.inl ⟨.u64, t, rfl⟩)
  | writeI64 t => exact .inr (.inl ⟨.i64, t, rfl⟩)
  | writeU128 t => exact .inr (.inl ⟨.u128, t, rfl⟩)
  | writeI128 t => exact .inr (.inl ⟨.i128, t, rfl⟩)
  | writeF32 t => exact .inr (.inl ⟨.f32, t, rfl⟩)
  | writeF64 t => exact .inr (.inl ⟨.f64, t, rfl⟩)
  | readUint t n => exact .inr (.inr (.inl ⟨.u64, t, n, rfl⟩))
  | readInt t n => exact .inr (.inr (.inl ⟨.i64, t, n, rfl⟩))
  | readUint128 t n => exact .inr (.inr (.inl ⟨.u128, t, n, rfl⟩))
  | readInt128 t n => exact .inr (.inr (.inl ⟨.i128, t, n, rfl⟩))
  | writeUint t n => exact .inr (.inr (.inr (.inl ⟨.u64, t, n, rfl⟩)))
  | writeInt t n => exact .inr (.inr (.inr (.inl ⟨.i64, t, n, rfl⟩)))
  | writeUint128 t n => exact .inr (.inr (.inr (.inl ⟨.u128, t, n, rfl⟩)))
  | writeInt128 t n => exact .inr (.inr (.inr (.inl ⟨.i128, t, n, rfl⟩)))
  | readU16Into t => exact .inr (.inr (.inr (.inr (.inl ⟨.u16, t, rfl⟩))))
  | readI16Into t => exact .inr (.inr (.inr (.inr (.inl ⟨.i16, t, rfl⟩))))
  | readU32Into t => exact .inr (.inr (.inr (.inr (.inl ⟨.u32, t, rfl⟩))))
  | readI32Into t => exact .inr (.inr (.inr (.inr (.inl ⟨.i32, t, rfl⟩))))
  | readU64Into t => exact .inr (.inr (.inr (.inr (.inl ⟨.u64, t, rfl⟩))))
  | readI64Into t => exact .inr (.inr (.inr (.inr (.inl ⟨.i64, t, rfl⟩))))
  | readU128Into t => exact .inr (.inr (.inr (.inr (.inl ⟨.u128, t, rfl⟩))))
  | readI128Into t => exact .inr (.inr (.inr (.inr (.inl ⟨.i128, t, rfl⟩))))
  | readF32Into t => exact .inr (.inr (.inr (.inr (.inl ⟨.f32, t, rfl⟩))))
  | readF64Into t => exact .inr (.inr (.inr (.inr (.inl ⟨.f64, t, rfl⟩))))
  | writeU16Into t => exact .inr (.inr (.inr (.inr (.inr ⟨.u16, t, rfl⟩))))
  | writeI16Into t => exact .inr (.inr (.inr (.inr (.inr ⟨.i16, t, rfl⟩))))
  | writeU32Into t => exact .inr (.inr (.inr (.inr (.inr ⟨.u32, t, rfl⟩))))
  | writeI32Into t => exact .inr (.inr (.inr (.inr (.inr ⟨.i32, t, rfl⟩))))
  | writeU64Into t => exact .inr (.inr (.inr (.inr (.inr ⟨.u64, t, rfl⟩))))
  | writeI64Into t => exact .inr (.inr (.inr (.inr (.inr ⟨.i64, t, rfl⟩))))
  | writeU128Into t => exact .inr (.inr (.inr (.inr (.inr ⟨.u128, t, rfl⟩))))
  | writeI128Into t => exact .inr (.inr (.inr (.inr (.inr ⟨.i128, t, rfl⟩))))
  | writeF32Into t => exact .inr (.inr (.inr (.inr (.inr ⟨.f32, t, rfl⟩))))
  | writeF64Into t => exact .inr (.inr (.inr (.inr (.inr ⟨.f64, t, rfl⟩))))

/-! The checks -/

@[simp] theorem inRange_iff (a l : Nat) : inRange a l = true ↔ a + l ≤ memSize := by simp [inRange]

theorem viewInRange_iff (s : State) : s.viewInRange = true ↔ s.bufAddr.toNat + s.bufLen.toNat ≤ memSize := by
  simp [State.viewInRange]

theorem sliceInRange_iff (s : State) (k : Kind) :
    s.sliceInRange k = true ↔ s.slAddr.toNat + s.slCount.toNat * k.width ≤ memSize := by
  simp [State.sliceInRange, State.sliceBytes]

theorem overlap_iff (a b l : Nat) : overlap a b l = true ↔ 0 < l ∧ a < b + l ∧ b < a + l := by
  simp [overlap, and_assoc]

theorem supports_iff (k : WideKind) (n : Nat) : k.supports n = true ↔ 1 ≤ n ∧ n ≤ k.maxCount := by
  simp [WideKind.supports]

@[simp] theorem disBig_length (n p : Nat) : (disBig n p).length = n := by
  induction n with
  | zero => rfl
  | succ n ih => simp [disBig, ih]

@[simp] theorem disLittle_length (n p : Nat) : (disLittle n p).length = n := by
  induction n generalizing p with
  | zero => rfl
  | succ n ih => simp [disLittle, ih]

@[simp] theorem dis_length (o : Order) (n p : Nat) : (dis o n p).length = n := by
  cases o <;> simp [dis]

/-! The six generic commands -/

theorem readFixed_cases {k : Kind} {t : Tag} {s : State} {r : Host.Outcome State Fault Refusal} (h : readFixed k t s = r) :
    (s.viewInRange = false ∧ r = .next (s.raise .range)) ∨
    (s.viewInRange = true ∧ s.bufLen.toNat < k.width ∧ r = .next (s.raise .short)) ∨
    (s.viewInRange = true ∧ k.width ≤ s.bufLen.toNat ∧
      r = .next (s.setV (extend k.signed (asm (resolve t) (s.viewBytes k.width)) k.bits))) := by
  subst h
  unfold readFixed
  split
  · exact .inl ⟨‹_›, rfl⟩
  · next hv =>
    split
    · exact .inr (.inl ⟨by simpa using hv, ‹_›, rfl⟩)
    · exact .inr (.inr ⟨by simpa using hv, by omega, rfl⟩)

theorem writeFixed_cases {k : Kind} {t : Tag} {s : State} {r : Host.Outcome State Fault Refusal} (h : writeFixed k t s = r) :
    (s.viewInRange = false ∧ r = .next (s.raise .range)) ∨
    (s.viewInRange = true ∧ s.bufLen.toNat < k.width ∧ r = .next (s.raise .short)) ∨
    (s.viewInRange = true ∧ k.width ≤ s.bufLen.toNat ∧
      r = .next (s.store s.bufAddr.toNat (dis (resolve t) k.width (s.operand k.bits)))) := by
  subst h
  unfold writeFixed
  split
  · exact .inl ⟨‹_›, rfl⟩
  · next hv =>
    split
    · exact .inr (.inl ⟨by simpa using hv, ‹_›, rfl⟩)
    · exact .inr (.inr ⟨by simpa using hv, by omega, rfl⟩)

theorem readVariable_cases {k : WideKind} {t : Tag} {n : Nat} {s : State} {r : Host.Outcome State Fault Refusal}
    (h : readVariable k t n s = r) :
    (k.supports n = false ∧ r = .next (s.raise .width)) ∨
    (k.supports n = true ∧ s.viewInRange = false ∧ r = .next (s.raise .range)) ∨
    (k.supports n = true ∧ s.viewInRange = true ∧ s.bufLen.toNat < n ∧ r = .next (s.raise .short)) ∨
    (k.supports n = true ∧ s.viewInRange = true ∧ n ≤ s.bufLen.toNat ∧
      r = .next (s.setV (extend k.kind.signed (asm (resolve t) (s.viewBytes n)) (8 * n)))) := by
  subst h
  unfold readVariable
  split
  · exact .inl ⟨‹_›, rfl⟩
  · next hw =>
    split
    · exact .inr (.inl ⟨by simpa using hw, ‹_›, rfl⟩)
    · next hv =>
      split
      · exact .inr (.inr (.inl ⟨by simpa using hw, by simpa using hv, ‹_›, rfl⟩))
      · exact .inr (.inr (.inr ⟨by simpa using hw, by simpa using hv, by omega, rfl⟩))

theorem writeVariable_cases {k : WideKind} {t : Tag} {n : Nat} {s : State} {r : Host.Outcome State Fault Refusal}
    (h : writeVariable k t n s = r) :
    (k.supports n = false ∧ r = .next (s.raise .width)) ∨
    (k.supports n = true ∧ s.viewInRange = false ∧ r = .next (s.raise .range)) ∨
    (k.supports n = true ∧ s.viewInRange = true ∧ s.bufLen.toNat < n ∧ r = .next (s.raise .short)) ∨
    (k.supports n = true ∧ s.viewInRange = true ∧ n ≤ s.bufLen.toNat ∧ fits k.kind n (s.operand k.kind.bits) = false ∧
      r = .next (s.raise .fit)) ∨
    (k.supports n = true ∧ s.viewInRange = true ∧ n ≤ s.bufLen.toNat ∧ fits k.kind n (s.operand k.kind.bits) = true ∧
      r = .next (s.store s.bufAddr.toNat (dis (resolve t) n (s.operand k.kind.bits % 2 ^ (8 * n))))) := by
  subst h
  unfold writeVariable
  split
  · exact .inl ⟨‹_›, rfl⟩
  · next hw =>
    split
    · exact .inr (.inl ⟨by simpa using hw, ‹_›, rfl⟩)
    · next hv =>
      split
      · exact .inr (.inr (.inl ⟨by simpa using hw, by simpa using hv, ‹_›, rfl⟩))
      · split
        · exact .inr (.inr (.inr (.inl ⟨by simpa using hw, by simpa using hv, by omega, ‹_›, rfl⟩)))
        · next hf => exact .inr (.inr (.inr (.inr ⟨by simpa using hw, by simpa using hv, by omega, by simpa using hf, rfl⟩)))

/-- The checks of a bulk command, in order. -/
theorem bulkFault_cases (k : Kind) (s : State) :
    ((s.viewInRange = false ∨ s.sliceInRange k = false) ∧ bulkFault k s = some .range) ∨
    (s.viewInRange = true ∧ s.sliceInRange k = true ∧ s.bufLen.toNat ≠ s.sliceBytes k ∧ bulkFault k s = some .len) ∨
    (s.viewInRange = true ∧ s.sliceInRange k = true ∧ s.bufLen.toNat = s.sliceBytes k ∧
      overlap s.bufAddr.toNat s.slAddr.toNat (s.sliceBytes k) = true ∧ bulkFault k s = some .overlap) ∨
    (s.viewInRange = true ∧ s.sliceInRange k = true ∧ s.bufLen.toNat = s.sliceBytes k ∧
      overlap s.bufAddr.toNat s.slAddr.toNat (s.sliceBytes k) = false ∧ bulkFault k s = none) := by
  unfold bulkFault
  by_cases hr : s.viewInRange = false ∨ s.sliceInRange k = false
  · exact .inl ⟨hr, if_pos hr⟩
  · have ⟨hv, hs⟩ : s.viewInRange = true ∧ s.sliceInRange k = true := by simpa [not_or] using hr
    rw [if_neg hr]
    by_cases hl : s.bufLen.toNat ≠ s.sliceBytes k
    · exact .inr (.inl ⟨hv, hs, hl, if_pos hl⟩)
    · rw [if_neg hl]
      by_cases ho : overlap s.bufAddr.toNat s.slAddr.toNat (s.sliceBytes k) = true
      · exact .inr (.inr (.inl ⟨hv, hs, not_not.mp hl, ho, if_pos ho⟩))
      · exact .inr (.inr (.inr ⟨hv, hs, not_not.mp hl, by simpa using ho, if_neg ho⟩))

theorem readBulk_cases {k : Kind} {t : Tag} {s : State} {r : Host.Outcome State Fault Refusal} (h : readBulk k t s = r) :
    (∃ c, bulkFault k s = some c ∧ r = .next (s.raise c)) ∨
    (bulkFault k s = none ∧
      r = .next { s with mem := convert k.width (resolve t) (resolve .ne) s.bufAddr.toNat s.slAddr.toNat s.slCount.toNat s.mem }) := by
  subst h
  unfold readBulk
  cases hb : bulkFault k s with
  | some c => exact .inl ⟨c, rfl, rfl⟩
  | none => exact .inr ⟨rfl, rfl⟩

theorem writeBulk_cases {k : Kind} {t : Tag} {s : State} {r : Host.Outcome State Fault Refusal} (h : writeBulk k t s = r) :
    (∃ c, bulkFault k s = some c ∧ r = .next (s.raise c)) ∨
    (bulkFault k s = none ∧
      r = .next { s with mem := convert k.width (resolve .ne) (resolve t) s.slAddr.toNat s.bufAddr.toNat s.slCount.toNat s.mem }) := by
  subst h
  unfold writeBulk
  cases hb : bulkFault k s with
  | some c => exact .inl ⟨c, rfl, rfl⟩
  | none => exact .inr ⟨rfl, rfl⟩

/-- The loop of a bulk command keeps the canonical form when its destination lies inside the address space. -/
theorem convert_wf {w src dst count : Nat} {so d : Order} {m : Memory} (h : m.wf) (hd : dst + w * count ≤ memSize) :
    (convert w so d src dst count m).wf := by
  induction count with
  | zero => exact h
  | succ e ih =>
    have he : w * (e + 1) = w * e + w := by ring
    rw [he] at hd
    exact Memory.wf_writeBytes (ih (by omega)) (by rw [dis_length]; omega)

/-! A command word and a host access -/

theorem execute_cases (w : Word) (s : State) :
    (∃ e, decode w = .error e ∧ execute w s = .next (s.raise .illegal)) ∨ (∃ i, decode w = .ok i ∧ execute w s = exec i s) := by
  unfold execute
  cases h : decode w with
  | error e => exact .inl ⟨e, rfl, rfl⟩
  | ok i => exact .inr ⟨i, rfl, rfl⟩

theorem portTakes_iff (size : AccessSize) (offset : Nat) : portTakes size offset = true ↔ size = .word ∧ offset % 4 = 0 := by
  simp [portTakes]

theorem hostWrite_cases (offset : Nat) (d : Word) (s : State) :
    (s.status.fault = true ∧ hostWrite offset d s = .next s) ∨
    (s.status.fault = false ∧ regAt offset = none ∧ hostWrite offset d s = .next s) ∨
    (s.status.fault = false ∧ regAt offset = some .cmd ∧ hostWrite offset d s = execute d { s with cmd := d }) ∨
    (s.status.fault = false ∧ ∃ r, r ≠ .cmd ∧ regAt offset = some r ∧ hostWrite offset d s = .next (s.writeReg r d)) := by
  unfold hostWrite
  cases hf : s.status.fault with
  | true => exact .inl ⟨rfl, by simp [hf]⟩
  | false =>
    cases hr : regAt offset with
    | none => exact .inr (.inl ⟨rfl, rfl, by simp [hf]⟩)
    | some r =>
      cases r with
      | cmd => exact .inr (.inr (.inl ⟨rfl, rfl, by simp [hf]⟩))
      | _ => exact .inr (.inr (.inr ⟨rfl, _, by simp, rfl, by simp [hf]⟩))

@[simp] theorem step_idle (s : State) (h : s.pending = []) : step s = .next s := by
  simp [step, serveNext, h]

theorem step_serves {s : State} {a : HostAccess} {rest : List HostAccess} (h : s.pending = a :: rest) :
    step s = serve a { s with pending := rest } := by
  simp [step, serveNext, h]

end Sys2Proof.Machine
end

