-- ==== Sys2Proof/Laws/PerInstr.lean ====
section
/-! SUPPORT. A fact about every command as syntax, one lemma per constructor: its word lies in its row of spec/30_encoding.md R117, and
its tag is not the illegal `END = 3`. -/

namespace Sys2Proof.Laws

/-- The row of R117 as `(match, mask)`, copied from the table. -/
def EncodesInRow.row (i : Instr) : Word × Word :=
  match i with
  | .readU16 _ => (0x00000001, 0xFFFFFCFF)
  | .readI16 _ => (0x00000041, 0xFFFFFCFF)
  | .readU32 _ => (0x00000011, 0xFFFFFCFF)
  | .readI32 _ => (0x00000051, 0xFFFFFCFF)
  | .readU64 _ => (0x00000021, 0xFFFFFCFF)
  | .readI64 _ => (0x00000061, 0xFFFFFCFF)
  | .readU128 _ => (0x00000031, 0xFFFFFCFF)
  | .readI128 _ => (0x00000071, 0xFFFFFCFF)
  | .readF32 _ => (0x00000091, 0xFFFFFCFF)
  | .readF64 _ => (0x000000A1, 0xFFFFFCFF)
  | .writeU16 _ => (0x00000002, 0xFFFFFCFF)
  | .writeI16 _ => (0x00000042, 0xFFFFFCFF)
  | .writeU32 _ => (0x00000012, 0xFFFFFCFF)
  | .writeI32 _ => (0x00000052, 0xFFFFFCFF)
  | .writeU64 _ => (0x00000022, 0xFFFFFCFF)
  | .writeI64 _ => (0x00000062, 0xFFFFFCFF)
  | .writeU128 _ => (0x00000032, 0xFFFFFCFF)
  | .writeI128 _ => (0x00000072, 0xFFFFFCFF)
  | .writeF32 _ => (0x00000092, 0xFFFFFCFF)
  | .writeF64 _ => (0x000000A2, 0xFFFFFCFF)
  | .readUint _ _ => (0x00000023, 0xFFE0FCFF)
  | .readInt _ _ => (0x00000063, 0xFFE0FCFF)
  | .readUint128 _ _ => (0x00000033, 0xFFE0FCFF)
  | .readInt128 _ _ => (0x00000073, 0xFFE0FCFF)
  | .writeUint _ _ => (0x00000024, 0xFFE0FCFF)
  | .writeInt _ _ => (0x00000064, 0xFFE0FCFF)
  | .writeUint128 _ _ => (0x00000034, 0xFFE0FCFF)
  | .writeInt128 _ _ => (0x00000074, 0xFFE0FCFF)
  | .readU16Into _ => (0x00000005, 0xFFFFFCFF)
  | .readI16Into _ => (0x00000045, 0xFFFFFCFF)
  | .readU32Into _ => (0x00000015, 0xFFFFFCFF)
  | .readI32Into _ => (0x00000055, 0xFFFFFCFF)
  | .readU64Into _ => (0x00000025, 0xFFFFFCFF)
  | .readI64Into _ => (0x00000065, 0xFFFFFCFF)
  | .readU128Into _ => (0x00000035, 0xFFFFFCFF)
  | .readI128Into _ => (0x00000075, 0xFFFFFCFF)
  | .readF32Into _ => (0x00000095, 0xFFFFFCFF)
  | .readF64Into _ => (0x000000A5, 0xFFFFFCFF)
  | .writeU16Into _ => (0x00000006, 0xFFFFFCFF)
  | .writeI16Into _ => (0x00000046, 0xFFFFFCFF)
  | .writeU32Into _ => (0x00000016, 0xFFFFFCFF)
  | .writeI32Into _ => (0x00000056, 0xFFFFFCFF)
  | .writeU64Into _ => (0x00000026, 0xFFFFFCFF)
  | .writeI64Into _ => (0x00000066, 0xFFFFFCFF)
  | .writeU128Into _ => (0x00000036, 0xFFFFFCFF)
  | .writeI128Into _ => (0x00000076, 0xFFFFFCFF)
  | .writeF32Into _ => (0x00000096, 0xFFFFFCFF)
  | .writeF64Into _ => (0x000000A6, 0xFFFFFCFF)

/-- The word of a well-formed command matches its row (`w & mask = match`) and has a legal tag. -/
def EncodesInRow.Statement (i : Instr) : Prop :=
  i.wellFormed = true →
    encode i &&& (EncodesInRow.row i).2 = (EncodesInRow.row i).1 ∧ (encode i).extractLsb' 8 2 ≠ 3

theorem EncodesInRow.readU16 (tag : Tag) : EncodesInRow.Statement (.readU16 tag) := by
  intro _
  cases tag <;> decide

theorem EncodesInRow.readI16 (tag : Tag) : EncodesInRow.Statement (.readI16 tag) := by
  intro _
  cases tag <;> decide

theorem EncodesInRow.readU32 (tag : Tag) : EncodesInRow.Statement (.readU32 tag) := by
  intro _
  cases tag <;> decide

theorem EncodesInRow.readI32 (tag : Tag) : EncodesInRow.Statement (.readI32 tag) := by
  intro _
  cases tag <;> decide

theorem EncodesInRow.readU64 (tag : Tag) : EncodesInRow.Statement (.readU64 tag) := by
  intro _
  cases tag <;> decide

theorem EncodesInRow.readI64 (tag : Tag) : EncodesInRow.Statement (.readI64 tag) := by
  intro _
  cases tag <;> decide

theorem EncodesInRow.readU128 (tag : Tag) : EncodesInRow.Statement (.readU128 tag) := by
  intro _
  cases tag <;> decide

theorem EncodesInRow.readI128 (tag : Tag) : EncodesInRow.Statement (.readI128 tag) := by
  intro _
  cases tag <;> decide

theorem EncodesInRow.readF32 (tag : Tag) : EncodesInRow.Statement (.readF32 tag) := by
  intro _
  cases tag <;> decide

theorem EncodesInRow.readF64 (tag : Tag) : EncodesInRow.Statement (.readF64 tag) := by
  intro _
  cases tag <;> decide

theorem EncodesInRow.writeU16 (tag : Tag) : EncodesInRow.Statement (.writeU16 tag) := by
  intro _
  cases tag <;> decide

theorem EncodesInRow.writeI16 (tag : Tag) : EncodesInRow.Statement (.writeI16 tag) := by
  intro _
  cases tag <;> decide

theorem EncodesInRow.writeU32 (tag : Tag) : EncodesInRow.Statement (.writeU32 tag) := by
  intro _
  cases tag <;> decide

theorem EncodesInRow.writeI32 (tag : Tag) : EncodesInRow.Statement (.writeI32 tag) := by
  intro _
  cases tag <;> decide

theorem EncodesInRow.writeU64 (tag : Tag) : EncodesInRow.Statement (.writeU64 tag) := by
  intro _
  cases tag <;> decide

theorem EncodesInRow.writeI64 (tag : Tag) : EncodesInRow.Statement (.writeI64 tag) := by
  intro _
  cases tag <;> decide

theorem EncodesInRow.writeU128 (tag : Tag) : EncodesInRow.Statement (.writeU128 tag) := by
  intro _
  cases tag <;> decide

theorem EncodesInRow.writeI128 (tag : Tag) : EncodesInRow.Statement (.writeI128 tag) := by
  intro _
  cases tag <;> decide

theorem EncodesInRow.writeF32 (tag : Tag) : EncodesInRow.Statement (.writeF32 tag) := by
  intro _
  cases tag <;> decide

theorem EncodesInRow.writeF64 (tag : Tag) : EncodesInRow.Statement (.writeF64 tag) := by
  intro _
  cases tag <;> decide

theorem EncodesInRow.readUint (tag : Tag) (n : Nat) : EncodesInRow.Statement (.readUint tag n) := by
  intro h
  have hn : n < 32 := by simpa [Instr.wellFormed] using h
  clear h
  revert n
  cases tag <;> decide

theorem EncodesInRow.readInt (tag : Tag) (n : Nat) : EncodesInRow.Statement (.readInt tag n) := by
  intro h
  have hn : n < 32 := by simpa [Instr.wellFormed] using h
  clear h
  revert n
  cases tag <;> decide

theorem EncodesInRow.readUint128 (tag : Tag) (n : Nat) : EncodesInRow.Statement (.readUint128 tag n) := by
  intro h
  have hn : n < 32 := by simpa [Instr.wellFormed] using h
  clear h
  revert n
  cases tag <;> decide

theorem EncodesInRow.readInt128 (tag : Tag) (n : Nat) : EncodesInRow.Statement (.readInt128 tag n) := by
  intro h
  have hn : n < 32 := by simpa [Instr.wellFormed] using h
  clear h
  revert n
  cases tag <;> decide

theorem EncodesInRow.writeUint (tag : Tag) (n : Nat) : EncodesInRow.Statement (.writeUint tag n) := by
  intro h
  have hn : n < 32 := by simpa [Instr.wellFormed] using h
  clear h
  revert n
  cases tag <;> decide

theorem EncodesInRow.writeInt (tag : Tag) (n : Nat) : EncodesInRow.Statement (.writeInt tag n) := by
  intro h
  have hn : n < 32 := by simpa [Instr.wellFormed] using h
  clear h
  revert n
  cases tag <;> decide

theorem EncodesInRow.writeUint128 (tag : Tag) (n : Nat) : EncodesInRow.Statement (.writeUint128 tag n) := by
  intro h
  have hn : n < 32 := by simpa [Instr.wellFormed] using h
  clear h
  revert n
  cases tag <;> decide

theorem EncodesInRow.writeInt128 (tag : Tag) (n : Nat) : EncodesInRow.Statement (.writeInt128 tag n) := by
  intro h
  have hn : n < 32 := by simpa [Instr.wellFormed] using h
  clear h
  revert n
  cases tag <;> decide

theorem EncodesInRow.readU16Into (tag : Tag) : EncodesInRow.Statement (.readU16Into tag) := by
  intro _
  cases tag <;> decide

theorem EncodesInRow.readI16Into (tag : Tag) : EncodesInRow.Statement (.readI16Into tag) := by
  intro _
  cases tag <;> decide

theorem EncodesInRow.readU32Into (tag : Tag) : EncodesInRow.Statement (.readU32Into tag) := by
  intro _
  cases tag <;> decide

theorem EncodesInRow.readI32Into (tag : Tag) : EncodesInRow.Statement (.readI32Into tag) := by
  intro _
  cases tag <;> decide

theorem EncodesInRow.readU64Into (tag : Tag) : EncodesInRow.Statement (.readU64Into tag) := by
  intro _
  cases tag <;> decide

theorem EncodesInRow.readI64Into (tag : Tag) : EncodesInRow.Statement (.readI64Into tag) := by
  intro _
  cases tag <;> decide

theorem EncodesInRow.readU128Into (tag : Tag) : EncodesInRow.Statement (.readU128Into tag) := by
  intro _
  cases tag <;> decide

theorem EncodesInRow.readI128Into (tag : Tag) : EncodesInRow.Statement (.readI128Into tag) := by
  intro _
  cases tag <;> decide

theorem EncodesInRow.readF32Into (tag : Tag) : EncodesInRow.Statement (.readF32Into tag) := by
  intro _
  cases tag <;> decide

theorem EncodesInRow.readF64Into (tag : Tag) : EncodesInRow.Statement (.readF64Into tag) := by
  intro _
  cases tag <;> decide

theorem EncodesInRow.writeU16Into (tag : Tag) : EncodesInRow.Statement (.writeU16Into tag) := by
  intro _
  cases tag <;> decide

theorem EncodesInRow.writeI16Into (tag : Tag) : EncodesInRow.Statement (.writeI16Into tag) := by
  intro _
  cases tag <;> decide

theorem EncodesInRow.writeU32Into (tag : Tag) : EncodesInRow.Statement (.writeU32Into tag) := by
  intro _
  cases tag <;> decide

theorem EncodesInRow.writeI32Into (tag : Tag) : EncodesInRow.Statement (.writeI32Into tag) := by
  intro _
  cases tag <;> decide

theorem EncodesInRow.writeU64Into (tag : Tag) : EncodesInRow.Statement (.writeU64Into tag) := by
  intro _
  cases tag <;> decide

theorem EncodesInRow.writeI64Into (tag : Tag) : EncodesInRow.Statement (.writeI64Into tag) := by
  intro _
  cases tag <;> decide

theorem EncodesInRow.writeU128Into (tag : Tag) : EncodesInRow.Statement (.writeU128Into tag) := by
  intro _
  cases tag <;> decide

theorem EncodesInRow.writeI128Into (tag : Tag) : EncodesInRow.Statement (.writeI128Into tag) := by
  intro _
  cases tag <;> decide

theorem EncodesInRow.writeF32Into (tag : Tag) : EncodesInRow.Statement (.writeF32Into tag) := by
  intro _
  cases tag <;> decide

theorem EncodesInRow.writeF64Into (tag : Tag) : EncodesInRow.Statement (.writeF64Into tag) := by
  intro _
  cases tag <;> decide

end Sys2Proof.Laws
end

