-- ==== Sys2Proof/Laws/Run.lean ====
section
/-! SUPPORT. How a run unfolds, one access at a time. -/

namespace Sys2Proof.Machine

theorem steps_zero (s : State) : steps 0 s = .next s := rfl

/-- More steps go on from the next state of the first. -/
theorem steps_succ_next {k : Nat} {s s' : State} (h : step s = .next s') : steps (k + 1) s = steps k s' := by
  simp [steps, h]

/-- A run of steps that ends in a state took a first step, and the rest ended there. -/
theorem steps_succ_inv {k : Nat} {s s' : State} (h : steps (k + 1) s = .next s') :
    ∃ s₁, step s = .next s₁ ∧ steps k s₁ = .next s' := by
  simp only [steps] at h
  split at h
  · exact ⟨_, ‹_›, h⟩
  · cases h
  · cases h

/-- A run of no accesses changes nothing. -/
theorem run_nil (s : State) : run [] s = .next { s with pending := [] } := rfl

/-- A run whose first access gives a next state goes on from there. -/
theorem run_cons_next {a : HostAccess} {rest : List HostAccess} {s s' : State}
    (h : serve a { s with pending := rest } = .next s') : run (a :: rest) s = steps rest.length s' :=
  steps_succ_next h

end Sys2Proof.Machine
end

