-- ==== Sys2Proof/Tests/Slice0.lean ====
section
/-! SUPPORT. The model's own tests. Expected results are copied from spec/95_test_vectors.md (the section is named at each group) and
spec/30_encoding.md; the witnesses show that the hypotheses of the statements can be met. -/

namespace Sys2Proof.Tests

open Sys2Proof.Machine

/-- What `f` says of the next state; `none` where there is none. -/
def out {α : Type} (f : State → α) (r : Host.Outcome State Fault Refusal) : Option α :=
  match r with
  | .next s => some (f s)
  | .fault _ => none
  | .refused _ => none

/-- Memory holding `bytes` at `a`. -/
def at_ (a : Nat) (bytes : List Nat) : Memory := Memory.writeBytes [] a (bytes.map (BitVec.ofNat 8))

/-- After reset, with the descriptors, `V` and memory set. -/
def st (bufAddr bufLen slAddr slCount : Nat) (v : Nat) (m : Memory) : State :=
  { (State.reset.setV (BitVec.ofNat 128 v)) with
    bufAddr := BitVec.ofNat 32 bufAddr, bufLen := BitVec.ofNat 32 bufLen
    slAddr := BitVec.ofNat 32 slAddr, slCount := BitVec.ofNat 32 slCount, mem := m }

/-- The `n` bytes at `a`, as numbers. -/
def bytesAt (a n : Nat) (s : State) : List Nat := (s.mem.readBytes a n).map BitVec.toNat

/-- The command a word decodes to; `none` for an illegal word. -/
def read (w : Word) : Option Instr := decodeTableWord 32 w.toNat

/-! WellFormed refuses an ill-formed term for its one check, the five bits of `N`, in each constructor that has an `N`. -/

theorem test_wellFormed_count :
    [Instr.readUint .be 32, .readInt .be 32, .readUint128 .le 32, .readInt128 .ne 33, .writeUint .be 32, .writeInt .le 40,
      .writeUint128 .ne 32, .writeInt128 .be 64].all (fun i => i.wellFormed == false) = true := by decide

theorem test_wellFormed_accepts : (Instr.readUint .be 31).wellFormed = true ∧ (Instr.readU16 .ne).wellFormed = true := by decide

/-! Decoding: words written out from spec/30_encoding.md R111 (RES1, N, RES0, END, KIND, OP) and its tables R112 to R114. -/

theorem test_decode_fixedReads :
    read 0b00000000000_00000_000000_00_0000_0001 = some (.readU16 .be) ∧
      read 0b00000000000_00000_000000_01_0100_0001 = some (.readI16 .le) ∧
      read 0b00000000000_00000_000000_10_0001_0001 = some (.readU32 .ne) ∧
      read 0b00000000000_00000_000000_00_0101_0001 = some (.readI32 .be) ∧
      read 0b00000000000_00000_000000_01_0010_0001 = some (.readU64 .le) ∧
      read 0b00000000000_00000_000000_10_0110_0001 = some (.readI64 .ne) ∧
      read 0b00000000000_00000_000000_00_0011_0001 = some (.readU128 .be) ∧
      read 0b00000000000_00000_000000_01_0111_0001 = some (.readI128 .le) ∧
      read 0b00000000000_00000_000000_10_1001_0001 = some (.readF32 .ne) ∧
      read 0b00000000000_00000_000000_00_1010_0001 = some (.readF64 .be) := by decide

theorem test_decode_fixedWrites :
    read 0b00000000000_00000_000000_00_0000_0010 = some (.writeU16 .be) ∧
      read 0b00000000000_00000_000000_01_0100_0010 = some (.writeI16 .le) ∧
      read 0b00000000000_00000_000000_10_0001_0010 = some (.writeU32 .ne) ∧
      read 0b00000000000_00000_000000_00_0101_0010 = some (.writeI32 .be) ∧
      read 0b00000000000_00000_000000_01_0010_0010 = some (.writeU64 .le) ∧
      read 0b00000000000_00000_000000_10_0110_0010 = some (.writeI64 .ne) ∧
      read 0b00000000000_00000_000000_00_0011_0010 = some (.writeU128 .be) ∧
      read 0b00000000000_00000_000000_01_0111_0010 = some (.writeI128 .le) ∧
      read 0b00000000000_00000_000000_10_1001_0010 = some (.writeF32 .ne) ∧
      read 0b00000000000_00000_000000_00_1010_0010 = some (.writeF64 .be) := by decide

theorem test_decode_variableReads :
    read 0b00000000000_00010_000000_00_0010_0011 = some (.readUint .be 2) ∧
      read 0b00000000000_01000_000000_01_0110_0011 = some (.readInt .le 8) ∧
      read 0b00000000000_01001_000000_10_0011_0011 = some (.readUint128 .ne 9) ∧
      read 0b00000000000_10000_000000_00_0111_0011 = some (.readInt128 .be 16) := by decide

theorem test_decode_variableWrites :
    read 0b00000000000_00010_000000_00_0010_0100 = some (.writeUint .be 2) ∧
      read 0b00000000000_01000_000000_01_0110_0100 = some (.writeInt .le 8) ∧
      read 0b00000000000_01001_000000_10_0011_0100 = some (.writeUint128 .ne 9) ∧
      read 0b00000000000_10000_000000_00_0111_0100 = some (.writeInt128 .be 16) := by decide

theorem test_decode_bulkReads :
    read 0b00000000000_00000_000000_00_0000_0101 = some (.readU16Into .be) ∧
      read 0b00000000000_00000_000000_01_0100_0101 = some (.readI16Into .le) ∧
      read 0b00000000000_00000_000000_10_0001_0101 = some (.readU32Into .ne) ∧
      read 0b00000000000_00000_000000_00_0101_0101 = some (.readI32Into .be) ∧
      read 0b00000000000_00000_000000_01_0010_0101 = some (.readU64Into .le) ∧
      read 0b00000000000_00000_000000_10_0110_0101 = some (.readI64Into .ne) ∧
      read 0b00000000000_00000_000000_00_0011_0101 = some (.readU128Into .be) ∧
      read 0b00000000000_00000_000000_01_0111_0101 = some (.readI128Into .le) ∧
      read 0b00000000000_00000_000000_10_1001_0101 = some (.readF32Into .ne) ∧
      read 0b00000000000_00000_000000_00_1010_0101 = some (.readF64Into .be) := by decide

theorem test_decode_bulkWrites :
    read 0b00000000000_00000_000000_00_0000_0110 = some (.writeU16Into .be) ∧
      read 0b00000000000_00000_000000_01_0100_0110 = some (.writeI16Into .le) ∧
      read 0b00000000000_00000_000000_10_0001_0110 = some (.writeU32Into .ne) ∧
      read 0b00000000000_00000_000000_00_0101_0110 = some (.writeI32Into .be) ∧
      read 0b00000000000_00000_000000_01_0010_0110 = some (.writeU64Into .le) ∧
      read 0b00000000000_00000_000000_10_0110_0110 = some (.writeI64Into .ne) ∧
      read 0b00000000000_00000_000000_00_0011_0110 = some (.writeU128Into .be) ∧
      read 0b00000000000_00000_000000_01_0111_0110 = some (.writeI128Into .le) ∧
      read 0b00000000000_00000_000000_10_1001_0110 = some (.writeF32Into .ne) ∧
      read 0b00000000000_00000_000000_00_1010_0110 = some (.writeF64Into .be) := by decide

/-- The table of spec/95_test_vectors.md section 2.8, the illegal words. -/
theorem test_decode_illegal :
    [(0x00000301 : Word), 0x00000008, 0x0000000F, 0x000000C1, 0x000000F6, 0x00010005, 0x00000043, 0x00000800, 0x00008001, 0x00400001].all (fun w => read w == none) = true := by decide

/-- Section 2.8, legal words with an `N` that is not supported: they decode. -/
theorem test_decode_unsupported_count :
    read 0x001F0023 = some (.readUint .be 31) ∧ read 0x00000023 = some (.readUint .be 0) ∧
      read 0x00110174 = some (.writeInt128 .le 17) ∧ read 0x00000033 = some (.readUint128 .be 0) := by decide

/-! Fixed-width reads: section 2.2, `V` before 0xAAAAAAAABBBBBBBBCCCCCCCCDDDDDDDD. -/

theorem test_read_u16 :
    out State.v (exec (.readU16 .le) (st 0x1000 2 0 0 0xAAAAAAAABBBBBBBBCCCCCCCCDDDDDDDD (at_ 0x1000 [0x12, 0x34]))) =
      some 0x00000000000000000000000000003412 := by decide

theorem test_read_i16 :
    out State.v (exec (.readI16 .le) (st 0x1000 2 0 0 0xAAAAAAAABBBBBBBBCCCCCCCCDDDDDDDD (at_ 0x1000 [0xFF, 0xFE]))) =
      some 0xFFFFFFFFFFFFFFFFFFFFFFFFFFFFFEFF := by decide

theorem test_read_u32 :
    out State.v (exec (.readU32 .le) (st 0x1000 4 0 0 0xAAAAAAAABBBBBBBBCCCCCCCCDDDDDDDD (at_ 0x1000 [0x12, 0x34, 0x56, 0x78]))) =
      some 0x00000000000000000000000078563412 := by decide

theorem test_read_i32 :
    out State.v (exec (.readI32 .le) (st 0x1000 4 0 0 0xAAAAAAAABBBBBBBBCCCCCCCCDDDDDDDD (at_ 0x1000 [0xFF, 0xFF, 0xFF, 0xFE]))) =
      some 0xFFFFFFFFFFFFFFFFFFFFFFFFFEFFFFFF := by decide

theorem test_read_u64 :
    out State.v (exec (.readU64 .le) (st 0x1000 8 0 0 0xAAAAAAAABBBBBBBBCCCCCCCCDDDDDDDD (at_ 0x1000 [0x01, 0x02, 0x03, 0x04, 0x05, 0x06, 0x07, 0x08]))) =
      some 0x00000000000000000807060504030201 := by decide

theorem test_read_i64 :
    out State.v (exec (.readI64 .le) (st 0x1000 8 0 0 0xAAAAAAAABBBBBBBBCCCCCCCCDDDDDDDD (at_ 0x1000 [0x00, 0x00, 0x00, 0x00, 0x00, 0x00, 0x00, 0x80]))) =
      some 0xFFFFFFFFFFFFFFFF8000000000000000 := by decide

theorem test_read_u128 :
    out State.v (exec (.readU128 .le) (st 0x1000 16 0 0 0xAAAAAAAABBBBBBBBCCCCCCCCDDDDDDDD (at_ 0x1000 [0x10, 0x11, 0x12, 0x13, 0x14, 0x15, 0x16, 0x17, 0x18, 0x19, 0x1A, 0x1B, 0x1C, 0x1D, 0x1E, 0x1F]))) =
      some 0x1F1E1D1C1B1A19181716151413121110 := by decide

theorem test_read_i128 :
    out State.v (exec (.readI128 .le) (st 0x1000 16 0 0 0xAAAAAAAABBBBBBBBCCCCCCCCDDDDDDDD (at_ 0x1000 [0xFF, 0xFF, 0xFF, 0xFF, 0xFF, 0xFF, 0xFF, 0xFF, 0xFF, 0xFF, 0xFF, 0xFF, 0xFF, 0xFF, 0xFF, 0xFE]))) =
      some 0xFEFFFFFFFFFFFFFFFFFFFFFFFFFFFFFF := by decide

theorem test_read_f32 :
    out State.v (exec (.readF32 .le) (st 0x1000 4 0 0 0xAAAAAAAABBBBBBBBCCCCCCCCDDDDDDDD (at_ 0x1000 [0x3F, 0x80, 0x00, 0x00]))) =
      some 0x0000000000000000000000000000803F := by decide

theorem test_read_f64 :
    out State.v (exec (.readF64 .le) (st 0x1000 8 0 0 0xAAAAAAAABBBBBBBBCCCCCCCCDDDDDDDD (at_ 0x1000 [0xC0, 0x00, 0x00, 0x00, 0x00, 0x00, 0x00, 0x00]))) =
      some 0x000000000000000000000000000000C0 := by decide

/-- An unaligned view longer than the width (section 2.2, last part). -/
theorem test_read_u32_long_view :
    out State.v (exec (.readU32 .be) (st 0x1003 7 0 0 0 (at_ 0x1003 [0x11, 0x22, 0x33, 0x44, 0x55, 0x66, 0x77]))) =
      some 0x11223344 := by decide

/-! Fixed-width writes: section 2.3, one byte beyond the width is not touched. -/

theorem test_write_u16 :
    out (bytesAt 0x1000 3) (exec (.writeU16 .be) (st 0x1000 3 0 0 0xDEADBEEF0000000000000000FFFF1234 (at_ 0x1000 [0xEE, 0xEE, 0xEE]))) =
      some [0x12, 0x34, 0xEE] := by decide

theorem test_write_i16 :
    out (bytesAt 0x1000 3) (exec (.writeI16 .le) (st 0x1000 3 0 0 0xFFFFFFFFFFFFFFFFFFFFFFFFFFFFFFFE (at_ 0x1000 [0xEE, 0xEE, 0xEE]))) =
      some [0xFE, 0xFF, 0xEE] := by decide

theorem test_write_u32 :
    out (bytesAt 0x1000 5) (exec (.writeU32 .le) (st 0x1000 5 0 0 0x00000000000000000000000012345678 (at_ 0x1000 [0xEE, 0xEE, 0xEE, 0xEE, 0xEE]))) =
      some [0x78, 0x56, 0x34, 0x12, 0xEE] := by decide

theorem test_write_i32 :
    out (bytesAt 0x1000 5) (exec (.writeI32 .be) (st 0x1000 5 0 0 0x00000000000000000000000180000000 (at_ 0x1000 [0xEE, 0xEE, 0xEE, 0xEE, 0xEE]))) =
      some [0x80, 0x00, 0x00, 0x00, 0xEE] := by decide

theorem test_write_u64 :
    out (bytesAt 0x1000 9) (exec (.writeU64 .le) (st 0x1000 9 0 0 0x00000000000000000102030405060708 (at_ 0x1000 [0xEE, 0xEE, 0xEE, 0xEE, 0xEE, 0xEE, 0xEE, 0xEE, 0xEE]))) =
      some [0x08, 0x07, 0x06, 0x05, 0x04, 0x03, 0x02, 0x01, 0xEE] := by decide

theorem test_write_i64 :
    out (bytesAt 0x1000 9) (exec (.writeI64 .le) (st 0x1000 9 0 0 0xFFFFFFFFFFFFFFFFFFFFFFFFFFFFFFFF (at_ 0x1000 [0xEE, 0xEE, 0xEE, 0xEE, 0xEE, 0xEE, 0xEE, 0xEE, 0xEE]))) =
      some [0xFF, 0xFF, 0xFF, 0xFF, 0xFF, 0xFF, 0xFF, 0xFF, 0xEE] := by decide

theorem test_write_u128 :
    out (bytesAt 0x1000 17) (exec (.writeU128 .le) (st 0x1000 17 0 0 0x101112131415161718191A1B1C1D1E1F (at_ 0x1000 [0xEE, 0xEE, 0xEE, 0xEE, 0xEE, 0xEE, 0xEE, 0xEE, 0xEE, 0xEE, 0xEE, 0xEE, 0xEE, 0xEE, 0xEE, 0xEE, 0xEE]))) =
      some [0x1F, 0x1E, 0x1D, 0x1C, 0x1B, 0x1A, 0x19, 0x18, 0x17, 0x16, 0x15, 0x14, 0x13, 0x12, 0x11, 0x10, 0xEE] := by decide

theorem test_write_i128 :
    out (bytesAt 0x1000 17) (exec (.writeI128 .le) (st 0x1000 17 0 0 0x80000000000000000000000000000000 (at_ 0x1000 [0xEE, 0xEE, 0xEE, 0xEE, 0xEE, 0xEE, 0xEE, 0xEE, 0xEE, 0xEE, 0xEE, 0xEE, 0xEE, 0xEE, 0xEE, 0xEE, 0xEE]))) =
      some [0x00, 0x00, 0x00, 0x00, 0x00, 0x00, 0x00, 0x00, 0x00, 0x00, 0x00, 0x00, 0x00, 0x00, 0x00, 0x80, 0xEE] := by decide

theorem test_write_f32 :
    out (bytesAt 0x1000 5) (exec (.writeF32 .le) (st 0x1000 5 0 0 0x0000000000000000000000003F800000 (at_ 0x1000 [0xEE, 0xEE, 0xEE, 0xEE, 0xEE]))) =
      some [0x00, 0x00, 0x80, 0x3F, 0xEE] := by decide

theorem test_write_f64 :
    out (bytesAt 0x1000 9) (exec (.writeF64 .le) (st 0x1000 9 0 0 0x0000000000000000C000000000000000 (at_ 0x1000 [0xEE, 0xEE, 0xEE, 0xEE, 0xEE, 0xEE, 0xEE, 0xEE, 0xEE]))) =
      some [0x00, 0x00, 0x00, 0x00, 0x00, 0x00, 0x00, 0xC0, 0xEE] := by decide

/-! Variable-width reads: section 2.4. -/

theorem test_read_uint :
    out State.v (exec (.readUint .le 3) (st 0x1000 3 0 0 0xAAAAAAAABBBBBBBBCCCCCCCCDDDDDDDD (at_ 0x1000 [0x80, 0x00, 0x01]))) =
      some 0x00000000000000000000000000010080 := by decide

theorem test_read_int :
    out State.v (exec (.readInt .le 2) (st 0x1000 2 0 0 0xAAAAAAAABBBBBBBBCCCCCCCCDDDDDDDD (at_ 0x1000 [0xFF, 0xFE]))) =
      some 0xFFFFFFFFFFFFFFFFFFFFFFFFFFFFFEFF := by decide

theorem test_read_int_positive :
    out State.v (exec (.readInt .be 7) (st 0x1000 7 0 0 0xAAAAAAAABBBBBBBBCCCCCCCCDDDDDDDD (at_ 0x1000 [0x7F, 0xFF, 0xFF, 0xFF, 0xFF, 0xFF, 0xFF]))) =
      some 0x0000000000000000007FFFFFFFFFFFFF := by decide

theorem test_read_uint128 :
    out State.v (exec (.readUint128 .le 16) (st 0x1000 16 0 0 0xAAAAAAAABBBBBBBBCCCCCCCCDDDDDDDD (at_ 0x1000 [0x01, 0x02, 0x03, 0x04, 0x05, 0x06, 0x07, 0x08, 0x09, 0x0A, 0x0B, 0x0C, 0x0D, 0x0E, 0x0F, 0x10]))) =
      some 0x100F0E0D0C0B0A090807060504030201 := by decide

theorem test_read_int128 :
    out State.v (exec (.readInt128 .le 9) (st 0x1000 9 0 0 0xAAAAAAAABBBBBBBBCCCCCCCCDDDDDDDD (at_ 0x1000 [0x00, 0x00, 0x00, 0x00, 0x00, 0x00, 0x00, 0x00, 0xFF]))) =
      some 0xFFFFFFFFFFFFFFFF0000000000000000 := by decide

/-! Variable-width writes: section 2.5, a value that fits and one that does not (STATUS 0x71). -/

theorem test_write_uint :
    out (bytesAt 0x1000 4) (exec (.writeUint .le 3) (st 0x1000 4 0 0 0x00000000000000000000000000ABCDEF (at_ 0x1000 [0xEE, 0xEE, 0xEE, 0xEE]))) =
      some [0xEF, 0xCD, 0xAB, 0xEE] := by decide

theorem test_write_uint_misfit :
    out (fun s => (s.statusWord, bytesAt 0x1000 2 s)) (exec (.writeUint .be 1) (st 0x1000 2 0 0 0x00000000000000000000000000000100 (at_ 0x1000 [0xEE, 0xEE]))) =
      some (0x71, [0xEE, 0xEE]) := by decide

theorem test_write_int :
    out (bytesAt 0x1000 3) (exec (.writeInt .le 2) (st 0x1000 3 0 0 0xFFFFFFFFFFFFFFFFFFFFFFFFFFFFFFFE (at_ 0x1000 [0xEE, 0xEE, 0xEE]))) =
      some [0xFE, 0xFF, 0xEE] := by decide

theorem test_write_int_misfit :
    out (fun s => (s.statusWord, bytesAt 0x1000 2 s)) (exec (.writeInt .be 1) (st 0x1000 2 0 0 0x00000000000000000000000000000080 (at_ 0x1000 [0xEE, 0xEE]))) =
      some (0x71, [0xEE, 0xEE]) := by decide

theorem test_write_uint128 :
    out (bytesAt 0x1000 10) (exec (.writeUint128 .le 9) (st 0x1000 10 0 0 0x00000000000000010000000000000000 (at_ 0x1000 [0xEE, 0xEE, 0xEE, 0xEE, 0xEE, 0xEE, 0xEE, 0xEE, 0xEE, 0xEE]))) =
      some [0x00, 0x00, 0x00, 0x00, 0x00, 0x00, 0x00, 0x00, 0x01, 0xEE] := by decide

theorem test_write_uint128_misfit :
    out (fun s => (s.statusWord, bytesAt 0x1000 9 s)) (exec (.writeUint128 .be 8) (st 0x1000 9 0 0 0x00000000000000010000000000000000 (at_ 0x1000 [0xEE, 0xEE, 0xEE, 0xEE, 0xEE, 0xEE, 0xEE, 0xEE, 0xEE]))) =
      some (0x71, [0xEE, 0xEE, 0xEE, 0xEE, 0xEE, 0xEE, 0xEE, 0xEE, 0xEE]) := by decide

theorem test_write_int128 :
    out (bytesAt 0x1000 10) (exec (.writeInt128 .le 9) (st 0x1000 10 0 0 0xFFFFFFFFFFFFFFFF0000000000000000 (at_ 0x1000 [0xEE, 0xEE, 0xEE, 0xEE, 0xEE, 0xEE, 0xEE, 0xEE, 0xEE, 0xEE]))) =
      some [0x00, 0x00, 0x00, 0x00, 0x00, 0x00, 0x00, 0x00, 0xFF, 0xEE] := by decide

theorem test_write_int128_misfit :
    out (fun s => (s.statusWord, bytesAt 0x1000 9 s)) (exec (.writeInt128 .be 8) (st 0x1000 9 0 0 0xFFFFFFFFFFFFFFFF0000000000000000 (at_ 0x1000 [0xEE, 0xEE, 0xEE, 0xEE, 0xEE, 0xEE, 0xEE, 0xEE, 0xEE]))) =
      some (0x71, [0xEE, 0xEE, 0xEE, 0xEE, 0xEE, 0xEE, 0xEE, 0xEE, 0xEE]) := by decide

/-! Bulk commands: section 2.6, on both builds: the slice bytes are the build's native order. -/

theorem test_write_u16_into (big : Bool) (h : Config.nativeBig = big) :
    out (bytesAt 0x1000 6) (exec (.writeU16Into .be) (st 0x1000 6 0x2000 3 0
      (at_ 0x2000 (if big then [0x12, 0x34, 0xAB, 0xCD, 0x00, 0x01] else [0x34, 0x12, 0xCD, 0xAB, 0x01, 0x00])))) =
      some [0x12, 0x34, 0xAB, 0xCD, 0x00, 0x01] := by
  simp only [exec, execWriteU16Into, writeBulk, resolve, nativeOrder, h]
  cases big <;> decide

theorem test_write_i16_into (big : Bool) (h : Config.nativeBig = big) :
    out (bytesAt 0x1000 4) (exec (.writeI16Into .le) (st 0x1000 4 0x2000 2 0
      (at_ 0x2000 (if big then [0xFF, 0xFE, 0x80, 0x00] else [0xFE, 0xFF, 0x00, 0x80])))) =
      some [0xFE, 0xFF, 0x00, 0x80] := by
  simp only [exec, execWriteI16Into, writeBulk, resolve, nativeOrder, h]
  cases big <;> decide

theorem test_write_u32_into (big : Bool) (h : Config.nativeBig = big) :
    out (bytesAt 0x1000 8) (exec (.writeU32Into .be) (st 0x1000 8 0x2000 2 0
      (at_ 0x2000 (if big then [0x12, 0x34, 0x56, 0x78, 0xDE, 0xAD, 0xBE, 0xEF] else [0x78, 0x56, 0x34, 0x12, 0xEF, 0xBE, 0xAD, 0xDE])))) =
      some [0x12, 0x34, 0x56, 0x78, 0xDE, 0xAD, 0xBE, 0xEF] := by
  simp only [exec, execWriteU32Into, writeBulk, resolve, nativeOrder, h]
  cases big <;> decide

theorem test_write_i32_into (big : Bool) (h : Config.nativeBig = big) :
    out (bytesAt 0x1000 4) (exec (.writeI32Into .le) (st 0x1000 4 0x2000 1 0
      (at_ 0x2000 (if big then [0xFF, 0xFF, 0xFF, 0xFE] else [0xFE, 0xFF, 0xFF, 0xFF])))) =
      some [0xFE, 0xFF, 0xFF, 0xFF] := by
  simp only [exec, execWriteI32Into, writeBulk, resolve, nativeOrder, h]
  cases big <;> decide

theorem test_write_u64_into (big : Bool) (h : Config.nativeBig = big) :
    out (bytesAt 0x1000 24) (exec (.writeU64Into .be) (st 0x1000 24 0x2000 3 0
      (at_ 0x2000 (if big then [0x00, 0x00, 0x00, 0x00, 0x00, 0x00, 0x00, 0x01, 0x00, 0x00, 0x00, 0x00, 0x00, 0x00, 0x00, 0x02, 0x00, 0x00, 0x00, 0x00, 0x00, 0x00, 0x00, 0x03] else [0x01, 0x00, 0x00, 0x00, 0x00, 0x00, 0x00, 0x00, 0x02, 0x00, 0x00, 0x00, 0x00, 0x00, 0x00, 0x00, 0x03, 0x00, 0x00, 0x00, 0x00, 0x00, 0x00, 0x00])))) =
      some [0x00, 0x00, 0x00, 0x00, 0x00, 0x00, 0x00, 0x01, 0x00, 0x00, 0x00, 0x00, 0x00, 0x00, 0x00, 0x02, 0x00, 0x00, 0x00, 0x00, 0x00, 0x00, 0x00, 0x03] := by
  simp only [exec, execWriteU64Into, writeBulk, resolve, nativeOrder, h]
  cases big <;> decide

theorem test_write_i64_into (big : Bool) (h : Config.nativeBig = big) :
    out (bytesAt 0x1000 16) (exec (.writeI64Into .le) (st 0x1000 16 0x2000 2 0
      (at_ 0x2000 (if big then [0xFF, 0xFF, 0xFF, 0xFF, 0xFF, 0xFF, 0xFF, 0xFF, 0x80, 0x00, 0x00, 0x00, 0x00, 0x00, 0x00, 0x00] else [0xFF, 0xFF, 0xFF, 0xFF, 0xFF, 0xFF, 0xFF, 0xFF, 0x00, 0x00, 0x00, 0x00, 0x00, 0x00, 0x00, 0x80])))) =
      some [0xFF, 0xFF, 0xFF, 0xFF, 0xFF, 0xFF, 0xFF, 0xFF, 0x00, 0x00, 0x00, 0x00, 0x00, 0x00, 0x00, 0x80] := by
  simp only [exec, execWriteI64Into, writeBulk, resolve, nativeOrder, h]
  cases big <;> decide

theorem test_write_u128_into (big : Bool) (h : Config.nativeBig = big) :
    out (bytesAt 0x1000 16) (exec (.writeU128Into .be) (st 0x1000 16 0x2000 1 0
      (at_ 0x2000 (if big then [0x00, 0x01, 0x02, 0x03, 0x04, 0x05, 0x06, 0x07, 0x08, 0x09, 0x0A, 0x0B, 0x0C, 0x0D, 0x0E, 0x0F] else [0x0F, 0x0E, 0x0D, 0x0C, 0x0B, 0x0A, 0x09, 0x08, 0x07, 0x06, 0x05, 0x04, 0x03, 0x02, 0x01, 0x00])))) =
      some [0x00, 0x01, 0x02, 0x03, 0x04, 0x05, 0x06, 0x07, 0x08, 0x09, 0x0A, 0x0B, 0x0C, 0x0D, 0x0E, 0x0F] := by
  simp only [exec, execWriteU128Into, writeBulk, resolve, nativeOrder, h]
  cases big <;> decide

theorem test_write_i128_into (big : Bool) (h : Config.nativeBig = big) :
    out (bytesAt 0x1000 16) (exec (.writeI128Into .le) (st 0x1000 16 0x2000 1 0
      (at_ 0x2000 (if big then [0xFF, 0xFF, 0xFF, 0xFF, 0xFF, 0xFF, 0xFF, 0xFF, 0xFF, 0xFF, 0xFF, 0xFF, 0xFF, 0xFF, 0xFF, 0xFE] else [0xFE, 0xFF, 0xFF, 0xFF, 0xFF, 0xFF, 0xFF, 0xFF, 0xFF, 0xFF, 0xFF, 0xFF, 0xFF, 0xFF, 0xFF, 0xFF])))) =
      some [0xFE, 0xFF, 0xFF, 0xFF, 0xFF, 0xFF, 0xFF, 0xFF, 0xFF, 0xFF, 0xFF, 0xFF, 0xFF, 0xFF, 0xFF, 0xFF] := by
  simp only [exec, execWriteI128Into, writeBulk, resolve, nativeOrder, h]
  cases big <;> decide

theorem test_write_f32_into (big : Bool) (h : Config.nativeBig = big) :
    out (bytesAt 0x1000 8) (exec (.writeF32Into .be) (st 0x1000 8 0x2000 2 0
      (at_ 0x2000 (if big then [0x3F, 0x80, 0x00, 0x00, 0x7F, 0xC0, 0x12, 0x34] else [0x00, 0x00, 0x80, 0x3F, 0x34, 0x12, 0xC0, 0x7F])))) =
      some [0x3F, 0x80, 0x00, 0x00, 0x7F, 0xC0, 0x12, 0x34] := by
  simp only [exec, execWriteF32Into, writeBulk, resolve, nativeOrder, h]
  cases big <;> decide

theorem test_write_f64_into (big : Bool) (h : Config.nativeBig = big) :
    out (bytesAt 0x1000 8) (exec (.writeF64Into .be) (st 0x1000 8 0x2000 1 0
      (at_ 0x2000 (if big then [0xC0, 0x00, 0x00, 0x00, 0x00, 0x00, 0x00, 0x00] else [0x00, 0x00, 0x00, 0x00, 0x00, 0x00, 0x00, 0xC0])))) =
      some [0xC0, 0x00, 0x00, 0x00, 0x00, 0x00, 0x00, 0x00] := by
  simp only [exec, execWriteF64Into, writeBulk, resolve, nativeOrder, h]
  cases big <;> decide

theorem test_read_u16_into (big : Bool) (h : Config.nativeBig = big) :
    out (bytesAt 0x2000 4) (exec (.readU16Into .be) (st 0x1000 4 0x2000 2 0 (at_ 0x1000 [0x12, 0x34, 0xAB, 0xCD]))) =
      some (if big then [0x12, 0x34, 0xAB, 0xCD] else [0x34, 0x12, 0xCD, 0xAB]) := by
  simp only [exec, execReadU16Into, readBulk, resolve, nativeOrder, h]
  cases big <;> decide

theorem test_read_i16_into (big : Bool) (h : Config.nativeBig = big) :
    out (bytesAt 0x2000 2) (exec (.readI16Into .le) (st 0x1000 2 0x2000 1 0 (at_ 0x1000 [0xFF, 0xFE]))) =
      some (if big then [0xFE, 0xFF] else [0xFF, 0xFE]) := by
  simp only [exec, execReadI16Into, readBulk, resolve, nativeOrder, h]
  cases big <;> decide

theorem test_read_u32_into (big : Bool) (h : Config.nativeBig = big) :
    out (bytesAt 0x2000 4) (exec (.readU32Into .be) (st 0x1000 4 0x2000 1 0 (at_ 0x1000 [0x12, 0x34, 0x56, 0x78]))) =
      some (if big then [0x12, 0x34, 0x56, 0x78] else [0x78, 0x56, 0x34, 0x12]) := by
  simp only [exec, execReadU32Into, readBulk, resolve, nativeOrder, h]
  cases big <;> decide

theorem test_read_i32_into (big : Bool) (h : Config.nativeBig = big) :
    out (bytesAt 0x2000 8) (exec (.readI32Into .le) (st 0x1000 8 0x2000 2 0 (at_ 0x1000 [0xFF, 0xFF, 0xFF, 0xFE, 0x00, 0x00, 0x00, 0x01]))) =
      some (if big then [0xFE, 0xFF, 0xFF, 0xFF, 0x01, 0x00, 0x00, 0x00] else [0xFF, 0xFF, 0xFF, 0xFE, 0x00, 0x00, 0x00, 0x01]) := by
  simp only [exec, execReadI32Into, readBulk, resolve, nativeOrder, h]
  cases big <;> decide

theorem test_read_u64_into (big : Bool) (h : Config.nativeBig = big) :
    out (bytesAt 0x2000 16) (exec (.readU64Into .be) (st 0x1000 16 0x2000 2 0 (at_ 0x1000 [0x01, 0x00, 0x00, 0x00, 0x00, 0x00, 0x00, 0x00, 0x02, 0x00, 0x00, 0x00, 0x00, 0x00, 0x00, 0x00]))) =
      some (if big then [0x01, 0x00, 0x00, 0x00, 0x00, 0x00, 0x00, 0x00, 0x02, 0x00, 0x00, 0x00, 0x00, 0x00, 0x00, 0x00] else [0x00, 0x00, 0x00, 0x00, 0x00, 0x00, 0x00, 0x01, 0x00, 0x00, 0x00, 0x00, 0x00, 0x00, 0x00, 0x02]) := by
  simp only [exec, execReadU64Into, readBulk, resolve, nativeOrder, h]
  cases big <;> decide

theorem test_read_i64_into (big : Bool) (h : Config.nativeBig = big) :
    out (bytesAt 0x2000 8) (exec (.readI64Into .le) (st 0x1000 8 0x2000 1 0 (at_ 0x1000 [0x80, 0x00, 0x00, 0x00, 0x00, 0x00, 0x00, 0x00]))) =
      some (if big then [0x00, 0x00, 0x00, 0x00, 0x00, 0x00, 0x00, 0x80] else [0x80, 0x00, 0x00, 0x00, 0x00, 0x00, 0x00, 0x00]) := by
  simp only [exec, execReadI64Into, readBulk, resolve, nativeOrder, h]
  cases big <;> decide

theorem test_read_u128_into (big : Bool) (h : Config.nativeBig = big) :
    out (bytesAt 0x2000 16) (exec (.readU128Into .be) (st 0x1000 16 0x2000 1 0 (at_ 0x1000 [0x00, 0x01, 0x02, 0x03, 0x04, 0x05, 0x06, 0x07, 0x08, 0x09, 0x0A, 0x0B, 0x0C, 0x0D, 0x0E, 0x0F]))) =
      some (if big then [0x00, 0x01, 0x02, 0x03, 0x04, 0x05, 0x06, 0x07, 0x08, 0x09, 0x0A, 0x0B, 0x0C, 0x0D, 0x0E, 0x0F] else [0x0F, 0x0E, 0x0D, 0x0C, 0x0B, 0x0A, 0x09, 0x08, 0x07, 0x06, 0x05, 0x04, 0x03, 0x02, 0x01, 0x00]) := by
  simp only [exec, execReadU128Into, readBulk, resolve, nativeOrder, h]
  cases big <;> decide

theorem test_read_i128_into (big : Bool) (h : Config.nativeBig = big) :
    out (bytesAt 0x2000 16) (exec (.readI128Into .le) (st 0x1000 16 0x2000 1 0 (at_ 0x1000 [0xFF, 0xFF, 0xFF, 0xFF, 0xFF, 0xFF, 0xFF, 0xFF, 0xFF, 0xFF, 0xFF, 0xFF, 0xFF, 0xFF, 0xFF, 0xFE]))) =
      some (if big then [0xFE, 0xFF, 0xFF, 0xFF, 0xFF, 0xFF, 0xFF, 0xFF, 0xFF, 0xFF, 0xFF, 0xFF, 0xFF, 0xFF, 0xFF, 0xFF] else [0xFF, 0xFF, 0xFF, 0xFF, 0xFF, 0xFF, 0xFF, 0xFF, 0xFF, 0xFF, 0xFF, 0xFF, 0xFF, 0xFF, 0xFF, 0xFE]) := by
  simp only [exec, execReadI128Into, readBulk, resolve, nativeOrder, h]
  cases big <;> decide

theorem test_read_f32_into (big : Bool) (h : Config.nativeBig = big) :
    out (bytesAt 0x2000 4) (exec (.readF32Into .be) (st 0x1000 4 0x2000 1 0 (at_ 0x1000 [0x3F, 0x80, 0x00, 0x00]))) =
      some (if big then [0x3F, 0x80, 0x00, 0x00] else [0x00, 0x00, 0x80, 0x3F]) := by
  simp only [exec, execReadF32Into, readBulk, resolve, nativeOrder, h]
  cases big <;> decide

theorem test_read_f64_into (big : Bool) (h : Config.nativeBig = big) :
    out (bytesAt 0x2000 8) (exec (.readF64Into .be) (st 0x1000 8 0x2000 1 0 (at_ 0x1000 [0xC0, 0x00, 0x00, 0x00, 0x00, 0x00, 0x00, 0x00]))) =
      some (if big then [0xC0, 0x00, 0x00, 0x00, 0x00, 0x00, 0x00, 0x00] else [0x00, 0x00, 0x00, 0x00, 0x00, 0x00, 0x00, 0xC0]) := by
  simp only [exec, execReadF64Into, readBulk, resolve, nativeOrder, h]
  cases big <;> decide

/-- A tag `ne` (section 2.6): the buffer equals the slice bytes on both builds. -/
theorem test_write_u16_into_native (big : Bool) (h : Config.nativeBig = big) :
    out (bytesAt 0x1000 4) (exec (.writeU16Into .ne) (st 0x1000 4 0x2000 2 0 (at_ 0x2000 [0x34, 0x12, 0xCD, 0xAB]))) =
      some [0x34, 0x12, 0xCD, 0xAB] := by
  simp only [exec, execWriteU16Into, writeBulk, resolve, nativeOrder, h]
  cases big <;> decide

/-! Faults and their priority: the tables F and Q of section 2.7. A row sets BUF_ADDR, BUF_LEN, SL_ADDR, SL_COUNT, V and writes a word to
`CMD`; the last entry is STATUS after. F17 and F30, which succeed, stand in the witnesses. -/

/-- One row: `STATUS` after the host's write of `w` to `CMD`, and `CMD`. -/
def row (r : Nat × Nat × Nat × Nat × Nat × Word) : Option (Word × Word) :=
  out (fun s => (s.statusWord, s.cmd))
    (step ((st r.1 r.2.1 r.2.2.1 r.2.2.2.1 r.2.2.2.2.1 []).withFetchWord 32 r.2.2.2.2.2.toNat))

theorem test_faults :
    [
     ((0x0, 0x0, 0x0, 0x0, 0x0, 0x00000000), 0x11),
     ((0x0, 0x0, 0x0, 0x0, 0x0, 0x00000007), 0x11),
     ((0x0, 0x0, 0x0, 0x0, 0x0, 0x00000301), 0x11),
     ((0x0, 0x0, 0x0, 0x0, 0x0, 0x00000081), 0x11),
     ((0x0, 0x0, 0x0, 0x0, 0x0, 0x000000B2), 0x11),
     ((0x0, 0x0, 0x0, 0x0, 0x0, 0x00010001), 0x11),
     ((0x0, 0x0, 0x0, 0x0, 0x0, 0x00020013), 0x11),
     ((0x0, 0x0, 0x0, 0x0, 0x0, 0x00020093), 0x11),
     ((0x0, 0x0, 0x0, 0x0, 0x0, 0x00000401), 0x11),
     ((0x0, 0x0, 0x0, 0x0, 0x0, 0x00200001), 0x11),
     ((0x0, 0x0, 0x0, 0x0, 0x0, 0x80000001), 0x11),
     ((0x00001000, 0x00000008, 0x0, 0x0, 0x0, 0x00000023), 0x21),
     ((0x00001000, 0x00000010, 0x0, 0x0, 0x0, 0x00090023), 0x21),
     ((0x00001000, 0x00000020, 0x0, 0x0, 0x0, 0x00110174), 0x21),
     ((0x00001000, 0x00000020, 0x0, 0x0, 0x0, 0x001F0173), 0x21),
     ((0xFFFFFFFF, 0x00000002, 0x0, 0x0, 0x0, 0x00000001), 0x31),
     ((0x80000000, 0x80000001, 0x0, 0x0, 0x0, 0x00000102), 0x31),
     ((0x00001000, 0x00000010, 0xFFFFFFF8, 0x00000001, 0x0, 0x00000035), 0x31),
     ((0x00001000, 0x00000000, 0x00002000, 0x10000000, 0x0, 0x00000036), 0x31),
     ((0x00001000, 0x00000003, 0x0, 0x0, 0x0, 0x00000011), 0x41),
     ((0x00001000, 0x0000000F, 0x0, 0x0, 0x00000000000000000000000000000001, 0x00000132), 0x41),
     ((0x00001000, 0x00000002, 0x0, 0x0, 0x0, 0x00030023), 0x41),
     ((0x0, 0x0, 0x0, 0x0, 0x0, 0x000002A1), 0x41),
     ((0x00001000, 0x00000019, 0x00002000, 0x00000003, 0x0, 0x00000126), 0x51),
     ((0x00001000, 0x00000017, 0x00002000, 0x00000003, 0x0, 0x00000126), 0x51),
     ((0x00001000, 0x00000000, 0x00002000, 0x00000001, 0x0, 0x00000005), 0x51),
     ((0x00001000, 0x00000008, 0x00001000, 0x00000002, 0x0, 0x00000115), 0x61),
     ((0x00001000, 0x00000008, 0x00001007, 0x00000002, 0x0, 0x00000216), 0x61),
     ((0x00001008, 0x00000008, 0x00001001, 0x00000001, 0x0, 0x00000025), 0x61),
     ((0x00001000, 0x00000004, 0x0, 0x0, 0x00000000000000000000000000000100, 0x00010024), 0x71),
     ((0x00001000, 0x00000004, 0x0, 0x0, 0x00000000000000000000000000000080, 0x00010164), 0x71),
     ((0x00001000, 0x00000010, 0x0, 0x0, 0x00000000000000010000000000000000, 0x00080034), 0x71)
    ].all (fun r => row r.1 == some (r.2, r.1.2.2.2.2.2)) = true := by decide

theorem test_priority :
    [
     ((0xFFFFFFFF, 0xFFFFFFFF, 0x0, 0x0, 0xFFFFFFFFFFFFFFFFFFFFFFFFFFFFFFFF, 0x00000701), 0x11),
     ((0xFFFFFFFF, 0x00000000, 0x0, 0x0, 0x0, 0x00000024), 0x21),
     ((0xFFFFFFFF, 0x00000002, 0x0, 0x0, 0xFFFFFFFFFFFFFFFFFFFFFFFFFFFFFFFF, 0x00090024), 0x21),
     ((0xFFFFFFFF, 0x00000002, 0x0, 0x0, 0xFFFFFFFFFFFFFFFFFFFFFFFFFFFFFFFF, 0x00040024), 0x31),
     ((0x00001000, 0x00000001, 0x0, 0x0, 0x00000000000000000000000000010000, 0x00020024), 0x41),
     ((0x00001000, 0x00000002, 0x0, 0x0, 0x00000000000000000000000000010000, 0x00020024), 0x71),
     ((0xFFFFFFF0, 0x00000020, 0xFFFFFFF0, 0x00000001, 0x0, 0x00000005), 0x31),
     ((0x00001000, 0x00000007, 0x00001000, 0x00000002, 0x0, 0x00000015), 0x51),
     ((0x00001000, 0x00000008, 0x00001004, 0x00000002, 0x0, 0x00000015), 0x61)
    ].all (fun r => row r.1 == some (r.2, r.1.2.2.2.2.2)) = true := by decide

/-- F17: a view that ends exactly at 2^32 is in range. -/
theorem test_view_up_to_the_end :
    out State.statusWord (exec (.readU16 .be) (st 0xFFFFFFFE 2 0 0 0 [])) = some 0x00 := by decide

/-- F30: adjacent regions do not overlap, on both builds. -/
theorem test_adjacent_regions (big : Bool) (h : Config.nativeBig = big) :
    out State.statusWord (exec (.writeU32Into .ne) (st 0x1000 8 0x1008 2 0 [])) = some 0x00 := by
  simp only [exec, execWriteU32Into, writeBulk, resolve, nativeOrder, h]
  cases big <;> decide

/-! The register port, the freeze and reset: single steps of the run of section 2.9. -/

/-- A frozen block: `read_u16.le` with `BUF_LEN = 1` has faulted. -/
def frozen : State :=
  { st 0x1000 1 0 0 0x1234 (at_ 0x1000 [0x12, 0x34]) with cmd := 0x101, status := { fault := true, err := 4 } }

/-- A view of the last two bytes of memory. -/
def lastTwo : State := st 0xFFFFFFFE 2 0 0 0x80 []

/-- `s` with one access pending. -/
def before (a : HostAccess) (s : State) : State := { s with pending := [a] }

theorem test_port_read :
    [(HostAccess.regRead .word 0x00, 0x101), (.regRead .word 0x04, 0x41), (.regRead .word 0x08, 0x1000), (.regRead .word 0x0C, 1),
      (.regRead .word 0x18, 0x1234), (.regRead .word 0x28, 0), (.regRead .word 0xFFC, 0)].all
      (fun r => out State.responses (step (before r.1 frozen)) == some [.register r.2]) = true := by decide

theorem test_port_write :
    out State.bufLen (step (before (.regWrite .word 0x0C 7) State.reset)) = some 7 ∧
      out State.v3 (step (before (.regWrite .word 0x24 0xCAFEF00D) State.reset)) = some 0xCAFEF00D ∧
      out State.statusWord (step (before (.regWrite .word 0x04 0xFFFFFFFF) State.reset)) = some 0 ∧
      out id (step (before (.regWrite .word 0x28 0x12345678) State.reset)) = some State.reset := by decide

theorem test_frozen_write_ignored :
    [HostAccess.regWrite .word 0x0C 2, .regWrite .word 0x18 0xFFFFFFFF, .regWrite .word 0x00 0x00000001].all
      (fun a => out id (step (before a frozen)) == some frozen) = true := by decide

theorem test_reset_clears_fault :
    out (fun s => (s.statusWord, s.cmd, s.bufAddr, s.v0, bytesAt 0x1000 2 s)) (step (before .reset frozen)) =
      some (0, 0, 0, 0, [0x12, 0x34]) := by decide

theorem test_narrow_refused :
    step (before (.regRead .byte 0x00) State.reset) = .refused .registerAccess ∧
      step (before (.regWrite .half 0x08 1) State.reset) = .refused .registerAccess ∧
      step (before (.regRead .word 0x02) State.reset) = .refused .registerAccess := ⟨rfl, rfl, rfl⟩

theorem test_host_memory :
    out (bytesAt 0x10 2) (step (before (.memWrite 0x11 0xAB) State.reset)) = some [0x00, 0xAB] ∧
      out State.responses (step (before (.memRead 0x1001) frozen)) = some [.memory 0x34] ∧
      step (before (.memRead 0x100000000) State.reset) = .fault .outsideMemory ∧
      step (before (.memWrite 0x100000000 1) State.reset) = .fault .outsideMemory := ⟨by decide, by decide, rfl, rfl⟩

/-- A command cut by reset (spec/70_reset_and_hazards.md R343): the registers are 0, whatever the bytes are. -/
theorem test_cut_command :
    out (fun s => (s.statusWord, s.cmd, s.bufAddr, s.v0, s.cuts)) (step (before (.cutCommand 0x00000002) lastTwo)) =
      some (0, 0, 0, 0, 1) := rfl

/-! Witnesses: for each statement with hypotheses a state and operands that meet them all, at boundary values, one for each of its
clauses. Hypotheses written as in the statement. -/

/-- A buffer of eight bytes right below a slice of eight bytes. -/
def adjacent (count : Nat) : State := st 0x1000 8 0x1008 count 0 (at_ 0x1000 [1, 2, 3, 4, 5, 6, 7, 8])

theorem witness_DecodeOfEncode :
    (Instr.readUint128 .ne 31).wellFormed = true ∧ (Instr.writeInt .le 0).wellFormed = true := by decide

theorem witness_EncodeOfDecode : decode 0x001F0023 = .ok (.readUint .be 31) := rfl

theorem witness_DecodeOnAllWords : decode 0x00100174 = .ok (.writeInt128 .le 16) ∧ (∀ i, decode 0x00000008 ≠ .ok i) :=
  ⟨rfl, fun _ h => nomatch h⟩

theorem witness_ByteOrderLaws : (0xFFFF : Nat) < 2 ^ (8 * 2) ∧ (0 : Nat) < 2 ^ (8 * 0) := by decide

/-- FixedReadResult, FixedWriteResult (their three clauses in order); the third also meets FixedWriteThenRead, FixedWriteSymmetry and
ReadThenWriteSwapsField. -/
theorem witness_FixedResults :
    2 ^ 32 < (st 0xFFFFFFFE 3 0 0 0 []).bufAddr.toNat + (st 0xFFFFFFFE 3 0 0 0 []).bufLen.toNat ∧
      ((st 0xFFFFFFFE 1 0 0 0 []).bufAddr.toNat + (st 0xFFFFFFFE 1 0 0 0 []).bufLen.toNat ≤ 2 ^ 32 ∧
        (st 0xFFFFFFFE 1 0 0 0 []).bufLen.toNat < Kind.i16.width) ∧
      (lastTwo.bufAddr.toNat + lastTwo.bufLen.toNat ≤ 2 ^ 32 ∧ Kind.i16.width ≤ lastTwo.bufLen.toNat) := by decide

/-- The two states differ, beyond the bytes read. -/
theorem witness_ScalarReadDependsOnItsBytes :
    let s := st 0x1000 4 0 0 7 (at_ 0x1000 [1, 2, 3, 4])
    let u := st 0x1000 4 9 9 8 (at_ 0x1000 [1, 2, 5, 6])
    s.bufAddr = u.bufAddr ∧ s.bufLen = u.bufLen ∧ s.bufAddr.toNat + s.bufLen.toNat ≤ 2 ^ 32 ∧ Kind.u16.width ≤ s.bufLen.toNat ∧
      2 ≤ WideKind.u64.maxCount ∧ s ≠ u ∧ ∀ i < 2, s.mem.read (s.bufAddr.toNat + i) = u.mem.read (s.bufAddr.toNat + i) := by decide

/-- VariableReadResult and FitCheckDecides, `N` at both ends of its range. -/
theorem witness_VariableReadResult :
    (1 ≤ 1 ∧ 1 ≤ WideKind.i64.maxCount ∧ lastTwo.bufAddr.toNat + lastTwo.bufLen.toNat ≤ 2 ^ 32 ∧ 1 ≤ lastTwo.bufLen.toNat) ∧
      (16 ≤ WideKind.u128.maxCount ∧ (st 0xFFFFFFF0 16 0 0 0 []).bufAddr.toNat + (st 0xFFFFFFF0 16 0 0 0 []).bufLen.toNat ≤ 2 ^ 32 ∧
        16 ≤ (st 0xFFFFFFF0 16 0 0 0 []).bufLen.toNat) := by decide

/-- VariableWriteResult: the largest and the smallest value that fit in one byte, for each type. -/
theorem witness_VariableWriteResult :
    (st 0x1000 1 0 0 0xFF []).v.toNat % 2 ^ 64 < 2 ^ (8 * 1) ∧ (st 0x1000 1 0 0 0xFF []).v.toNat < 2 ^ (8 * 1) ∧
      (-2 ^ (8 * 1 - 1) ≤ ((st 0x1000 1 0 0 0xFFFFFFFFFFFFFF80 []).v.setWidth 64).toInt ∧
        ((st 0x1000 1 0 0 0xFFFFFFFFFFFFFF80 []).v.setWidth 64).toInt < 2 ^ (8 * 1 - 1)) ∧
      (-2 ^ (8 * 1 - 1) ≤ (st 0x1000 1 0 0 0x7F []).v.toInt ∧ (st 0x1000 1 0 0 0x7F []).v.toInt < 2 ^ (8 * 1 - 1)) := by decide

/-- FitCheckDecides: 0x80 in one byte fits as unsigned, not as signed. -/
theorem witness_FitCheckDecides :
    (lastTwo.v.setWidth 64).toNat < 2 ^ (8 * 1) ∧ lastTwo.v.toNat < 2 ^ (8 * 1) ∧
      ¬ (-2 ^ (8 * 1 - 1) ≤ (lastTwo.v.setWidth 64).toInt ∧ (lastTwo.v.setWidth 64).toInt < 2 ^ (8 * 1 - 1)) ∧
      ¬ (-2 ^ (8 * 1 - 1) ≤ lastTwo.v.toInt ∧ lastTwo.v.toInt < 2 ^ (8 * 1 - 1)) := by decide

theorem witness_VariableWriteThenRead :
    lastTwo.status.fault = false ∧
      out (fun s => s.status.fault) (exec (variableWrite .u64 .be 1) lastTwo) = some false := by decide

/-- BulkWriteResult and BulkReadResult: `E_RANGE` by the view and by the slice, `E_LEN`, `E_OVERLAP` by one byte, and success with adjacent
regions; the last also meets BulkNetEffect and BulkWriteThenScalarRead. -/
theorem witness_BulkResults :
    (let s := st 0xFFFFFFFE 3 0 0 0 []; 2 ^ 32 < s.bufAddr.toNat + s.bufLen.toNat) ∧
      (let s := st 0 0 0xFFFFFFFF 0xFFFFFFFF 0 []; 2 ^ 32 < s.slAddr.toNat + s.slCount.toNat * Kind.u128.width) ∧
      (let s := adjacent 3
       s.bufAddr.toNat + s.bufLen.toNat ≤ 2 ^ 32 ∧ s.slAddr.toNat + s.slCount.toNat * Kind.u32.width ≤ 2 ^ 32 ∧
        s.bufLen.toNat ≠ s.slCount.toNat * Kind.u32.width) ∧
      (let s := st 0x1000 8 0x1007 2 0 []
       let L := s.slCount.toNat * Kind.u32.width
       s.bufAddr.toNat + s.bufLen.toNat ≤ 2 ^ 32 ∧ s.slAddr.toNat + L ≤ 2 ^ 32 ∧ s.bufLen.toNat = L ∧
        0 < L ∧ s.bufAddr.toNat < s.slAddr.toNat + L ∧ s.slAddr.toNat < s.bufAddr.toNat + L) ∧
      (let s := adjacent 2
       let L := s.slCount.toNat * Kind.u32.width
       s.bufAddr.toNat + s.bufLen.toNat ≤ 2 ^ 32 ∧ s.slAddr.toNat + L ≤ 2 ^ 32 ∧ s.bufLen.toNat = L ∧
        ¬ (0 < L ∧ s.bufAddr.toNat < s.slAddr.toNat + L ∧ s.slAddr.toNat < s.bufAddr.toNat + L)) := by decide

theorem witness_BulkOfZeroElements :
    (st 0xFFFFFFFF 0 0xFFFFFFFF 0 0 []).slCount = 0 ∧ (st 0xFFFFFFFF 0 0xFFFFFFFF 0 0 []).bufLen = 0 ∧
      (st 0xFFFFFFFF 1 0 0 0 []).slCount = 0 ∧ (st 0xFFFFFFFF 1 0 0 0 []).bufLen ≠ 0 ∧ (st 0xFFFFFFFF 2 0 0 0 []).bufLen ≠ 0 := by decide

/-- With the regions of `witness_BulkResults`. -/
theorem witness_FastPathIsBlockCopy : (adjacent 2).mem.wf ∧ resolve .ne = resolve .ne := ⟨by decide, rfl⟩

/-- BulkReadInvertsBulkWrite, with the regions of `witness_BulkResults`: the third region is the slice itself, or one right above it. -/
theorem witness_BulkReadInvertsBulkWrite :
    [(0x1008 : Word), 0x1010].all (fun d =>
      decide (d.toNat + 8 ≤ 2 ^ 32 ∧ ¬ (0 < 8 ∧ 0x1000 < d.toNat + 8 ∧ d.toNat < 0x1000 + 8))) = true ∧
      (adjacent 2).slCount.toNat * Kind.u32.width = 8 ∧ (adjacent 2).bufAddr = 0x1000 := by decide

theorem witness_KindsOfOneWidthMoveTheSameBytes : Kind.u32.width = Kind.f32.width ∧ Kind.i64.width = Kind.f64.width := by decide

/-- IllegalWordFaults: each clause at a boundary of its field. -/
theorem witness_IllegalWordFaults :
    (0x00000401 : Nat) / 2 ^ 10 % 2 ^ 6 ≠ 0 ∧ (0x00200001 : Nat) / 2 ^ 21 ≠ 0 ∧ (0x00000000 : Nat) % 2 ^ 4 = 0 ∧ 7 ≤ (0x00000007 : Nat) % 2 ^ 4 ∧
      (0x00000301 : Nat) / 2 ^ 8 % 2 ^ 2 = 3 ∧ (0x00000081 : Nat) / 2 ^ 4 % 2 ^ 4 = 8 ∧ 11 ≤ (0x000000B1 : Nat) / 2 ^ 4 % 2 ^ 4 ∧
      ((0x00010013 : Nat) % 2 ^ 4 ∈ [3, 4] ∧ (0x00010013 : Nat) / 2 ^ 4 % 2 ^ 4 ∉ [2, 3, 6, 7]) ∧
      ((0x00010005 : Nat) % 2 ^ 4 ∉ [3, 4] ∧ (0x00010005 : Nat) / 2 ^ 16 % 2 ^ 5 ≠ 0) := by decide

theorem witness_UnsupportedCountFaults : ((0 : Nat) = 0 ∨ 8 < 0) ∧ ((9 : Nat) = 0 ∨ 8 < 9) ∧ ((17 : Nat) = 0 ∨ 16 < 17) := by decide

/-- RangeFaults: by the view (with a supported `N`), by the slice, and a scalar command that gives a next state. -/
theorem witness_RangeFaults :
    2 ^ 32 < (st 0xFFFFFFFF 2 0 0 0 []).bufAddr.toNat + (st 0xFFFFFFFF 2 0 0 0 []).bufLen.toNat ∧ 1 ≤ 8 ∧ 8 ≤ WideKind.i64.maxCount ∧
      2 ^ 32 < (st 0 0 0xFFFFFFFF 1 0 []).slAddr.toNat + (st 0 0 0xFFFFFFFF 1 0 []).slCount.toNat * Kind.u16.width ∧
      (out (fun _ => ()) (exec (fixedRead .u16 .be) lastTwo)).isSome = true := by decide

theorem witness_ShortViewFaults :
    let s := st 0xFFFFFFFF 1 0 0 0 []
    s.bufAddr.toNat + s.bufLen.toNat ≤ 2 ^ 32 ∧ s.bufLen.toNat < Kind.u16.width ∧ 2 ≤ WideKind.u64.maxCount ∧ s.bufLen.toNat < 2 := by
  decide

/-- LengthFaults: a view one byte too short, and one byte too long with the regions overlapping. -/
theorem witness_LengthFaults :
    (let s := st 0x1000 7 0x2000 2 0 []
     s.bufAddr.toNat + s.bufLen.toNat ≤ 2 ^ 32 ∧ s.slAddr.toNat + s.slCount.toNat * Kind.u32.width ≤ 2 ^ 32 ∧
      s.bufLen.toNat < s.slCount.toNat * Kind.u32.width) ∧
      (let s := st 0x1000 9 0x1000 2 0 []
       s.bufAddr.toNat + s.bufLen.toNat ≤ 2 ^ 32 ∧ s.slAddr.toNat + s.slCount.toNat * Kind.u32.width ≤ 2 ^ 32 ∧
        s.slCount.toNat * Kind.u32.width < s.bufLen.toNat) := by decide

/-- OverlapFaults: regions that share exactly the byte at 0x1007; `adjacent 2` shares none (`witness_BulkResults`). -/
theorem witness_OverlapFaults :
    let s := st 0x1000 8 0x1007 2 0 []
    s.bufAddr.toNat + s.bufLen.toNat ≤ 2 ^ 32 ∧ s.slAddr.toNat + s.slCount.toNat * Kind.u32.width ≤ 2 ^ 32 ∧
      s.bufLen.toNat = s.slCount.toNat * Kind.u32.width ∧
      s.bufAddr.toNat ≤ 0x1007 ∧ 0x1007 < s.bufAddr.toNat + 8 ∧ s.slAddr.toNat ≤ 0x1007 ∧ 0x1007 < s.slAddr.toNat + 8 := by decide

/-- FirstCauseIsReported: R299's example, `write_uint.be 2` with `BUF_LEN = 1` and `V = 0x10000`: `E_SHORT` and `E_FIT` apply, `E_WIDTH` and
`E_RANGE` do not. -/
theorem witness_FirstCauseIsReported :
    let s := st 0x1000 1 0 0 0x10000 []
    s.status.fault = false ∧ causeApplies 0x00020024 s .short ∧ causeApplies 0x00020024 s .fit ∧
      ∀ d : FaultCode, d.code.toNat < FaultCode.short.code.toNat → ¬ causeApplies 0x00020024 s d := by
  refine ⟨rfl, .inr ⟨.inr rfl, by decide⟩, ⟨rfl, ?_⟩, fun d hd => ?_⟩
  · show 2 ^ (8 * 2) ≤ _
    decide
  · cases d with
    | illegal => exact fun h => h
    | width => exact fun h => absurd h.2 (by decide)
    | range => exact fun h => h.elim (by decide) fun h => by rcases h.1 with h | h <;> cases h
    | short | len | overlap | fit => exact absurd hd (by decide)

/-- A fault in each of three operations (FaultsAreClean), and a success (OperandRegistersKept). -/
theorem witness_FaultsAreClean :
    lastTwo.status.fault = false ∧
      [Instr.readU32 .be, .writeInt .le 1, .writeU16Into .be].all
        (fun i => out (fun s => s.status.fault) (exec i lastTwo) == some true) = true ∧
      out (fun s => s.status.fault) (exec (.readU16 .be) lastTwo) = some false := by decide

/-- The two states differ in `CMD`. -/
theorem witness_CommandsArePure :
    let u := { lastTwo with cmd := 5 }
    lastTwo.bufAddr = u.bufAddr ∧ lastTwo.bufLen = u.bufLen ∧ lastTwo.slAddr = u.slAddr ∧ lastTwo.slCount = u.slCount ∧
      lastTwo.v = u.v ∧ lastTwo.mem = u.mem ∧ lastTwo.status.fault = false ∧ u.status.fault = false ∧ lastTwo ≠ u ∧
      (out id (exec (.readI16 .le) lastTwo)).isSome = true := by decide

theorem witness_StepRunsDecodedCommand :
    (lastTwo.withFetchWord 32 0x00000041).pending = [.regWrite .word 0x00 0x00000041] ∧
      (lastTwo.withFetchWord 32 0x00000041).status.fault = false ∧ decode 0x00000041 = .ok (.readI16 .be) := ⟨rfl, rfl, rfl⟩

/-- StepServesOldestAccess (the offsets also meet RegisterReadReturns and RegisterWriteStores): inside the map, at its end, above it; and a frozen block. -/
theorem witness_RegisterAccesses :
    ∀ offset ∈ [0x00, 0x04, 0x24, 0x28, 0xFFC],
      (before (.regRead .word offset) frozen).pending = [.regRead .word offset] ∧
        (before (.regWrite .word offset 9) State.reset).pending = [.regWrite .word offset 9] ∧ offset % 4 = 0 := by decide

theorem witness_NarrowAccessRefused :
    (AccessSize.byte ≠ .word ∨ 0 % 4 ≠ 0) ∧ (AccessSize.word ≠ .word ∨ 0x26 % 4 ≠ 0) ∧
      (before (.regRead .byte 0) State.reset).pending = [.regRead .byte 0] := by decide

/-- StepServesOldestAccess (a reset), CutCommandLeavesOldOrNew, HostMemoryAccess (a write and a read of the last byte, and of the first
address that does not exist), IdleStepHoldsState. -/
theorem witness_HostInputs :
    (before .reset frozen).pending = [.reset] ∧ (before (.cutCommand 0x00000002) lastTwo).pending = [.cutCommand 0x00000002] ∧
      (before (.memWrite 0xFFFFFFFF 1) lastTwo).pending = [.memWrite 0xFFFFFFFF 1] ∧ 0xFFFFFFFF < 2 ^ 32 ∧
      (before (.memRead 0xFFFFFFFF) lastTwo).pending = [.memRead 0xFFFFFFFF] ∧
      (before (.memWrite 0x100000000 1) lastTwo).pending = [.memWrite 0x100000000 1] ∧
      (before (.memRead 0x100000000) lastTwo).pending = [.memRead 0x100000000] ∧ 2 ^ 32 ≤ 0x100000000 ∧ lastTwo.pending = [] :=
  ⟨rfl, rfl, rfl, by decide, rfl, rfl, rfl, by decide, rfl⟩

/-- StepKeepsInvariant and StatusWordValues, in a faulted state. -/
theorem witness_StepKeepsInvariant :
    frozen.Inv ∧ (out id (step (before (.regRead .word 0x04) frozen))).isSome = true := by decide

/-- StepKeepsFaultRecord, in a faulted state. -/
theorem witness_StepKeepsFaultRecord :
    frozen.faultRecorded ∧ frozen.status.fault = true ∧ step (before (.regWrite .word 0x0C 2) frozen) = .next frozen :=
  ⟨fun _ => rfl, rfl, rfl⟩

theorem witness_FrozenRunsChangeNothing :
    let l := [HostAccess.regWrite .word 0x00 0x00000001, .regRead .word 0x18]
    frozen.status.fault = true ∧ (∀ a ∈ l, a.keepsFault = true ∧ a.sparesMemory = true) ∧
      run l frozen = .next { frozen with responses := [.register 0x1234] } :=
  ⟨rfl, by decide, rfl⟩

/-- MemoryChangesOnlyByWriteCommands: the byte at the end of memory changes. -/
theorem witness_MemoryChangesOnlyByWriteCommands :
    (lastTwo.withFetchWord 32 0x00000002).pending = [.regWrite .word 0x00 0x00000002] ∧
      out (fun s => s.mem.read 0xFFFFFFFF) (step (lastTwo.withFetchWord 32 0x00000002)) = some 0x80 ∧
      (lastTwo.withFetchWord 32 0x00000002).mem.read 0xFFFFFFFF = 0x00 := by decide

/-- DescriptorsChangeOnlyByTheHost: `BUF_ADDR` changes. -/
theorem witness_DescriptorsChangeOnlyByTheHost :
    (before (.regWrite .word 0x08 5) lastTwo).pending = [.regWrite .word 0x08 5] ∧
      out (fun s => s.readReg .bufAddr) (step (before (.regWrite .word 0x08 5) lastTwo)) = some 5 ∧
      (before (.regWrite .word 0x08 5) lastTwo).readReg .bufAddr ≠ 5 := by decide

end Sys2Proof.Tests
end

