-- ==== Sys2Proof/Proofs/CommandEffect.lean ====
section
/-! What one command can do to a state, and that two states with the same inputs get the same effect (spec/00_scope.md R7). -/

namespace Sys2Proof.Machine

/-- The one thing a command does: latch a fault, set `V`, store bytes, or replace memory. -/
inductive Effect where
  | fault (c : FaultCode)
  | value (p : Value)
  | store (addr : Nat) (bytes : List Byte)
  | memory (m : Memory)

/-- The state a command leaves by its effect. -/
def Effect.apply (e : Effect) (s : State) : State :=
  match e with
  | .fault c => s.raise c
  | .value p => s.setV p
  | .store addr bytes => s.store addr bytes
  | .memory m => { s with mem := m }

@[simp] theorem Effect.apply_fault (c : FaultCode) (s : State) : (Effect.fault c).apply s = s.raise c := rfl

@[simp] theorem Effect.apply_value (p : Value) (s : State) : (Effect.value p).apply s = s.setV p := rfl

@[simp] theorem Effect.apply_store (addr : Nat) (bytes : List Byte) (s : State) :
    (Effect.store addr bytes).apply s = s.store addr bytes := rfl

@[simp] theorem Effect.apply_memory (m : Memory) (s : State) : (Effect.memory m).apply s = { s with mem := m } := rfl

/-- Two states agree on all that R7 lets a command read: the operand registers, `V` and memory. -/
structure State.SameInputs (s u : State) : Prop where
  bufAddr : s.bufAddr = u.bufAddr
  bufLen : s.bufLen = u.bufLen
  slAddr : s.slAddr = u.slAddr
  slCount : s.slCount = u.slCount
  v : s.v = u.v
  mem : s.mem = u.mem

/-- An operation does one and the same effect to both states. -/
def SameEffect (op : State → Host.Outcome State Fault Refusal) (s u : State) : Prop :=
  ∃ e : Effect, op s = .next (e.apply s) ∧ op u = .next (e.apply u)

section
variable {s u : State}

/-! What the checks and operands of a command read -/

theorem State.SameInputs.viewInRange (h : s.SameInputs u) : s.viewInRange = u.viewInRange := by
  simp only [State.viewInRange, h.bufAddr, h.bufLen]

theorem State.SameInputs.viewBytes (h : s.SameInputs u) (n : Nat) : s.viewBytes n = u.viewBytes n := by
  simp only [State.viewBytes, h.mem, h.bufAddr]

theorem State.SameInputs.operand (h : s.SameInputs u) (t : Nat) : s.operand t = u.operand t := by
  simp only [State.operand, h.v]

theorem State.SameInputs.sliceBytes (h : s.SameInputs u) (k : Kind) : s.sliceBytes k = u.sliceBytes k := by
  simp only [State.sliceBytes, h.slCount]

theorem State.SameInputs.sliceInRange (h : s.SameInputs u) (k : Kind) : s.sliceInRange k = u.sliceInRange k := by
  simp only [State.sliceInRange, h.slAddr, h.sliceBytes]

theorem State.SameInputs.bulkFault (h : s.SameInputs u) (k : Kind) : bulkFault k s = bulkFault k u := by
  unfold Machine.bulkFault
  rw [h.viewInRange, h.sliceInRange, h.sliceBytes, h.bufAddr, h.bufLen, h.slAddr]

/-! The six operations -/

theorem readFixed_sameEffect (k : Kind) (t : Tag) (h : s.SameInputs u) : SameEffect (readFixed k t) s u := by
  simp only [SameEffect, readFixed, h.viewInRange, h.bufLen, h.viewBytes]
  split
  · exact ⟨.fault .range, rfl, rfl⟩
  split
  · exact ⟨.fault .short, rfl, rfl⟩
  · exact ⟨.value _, rfl, rfl⟩

theorem writeFixed_sameEffect (k : Kind) (t : Tag) (h : s.SameInputs u) : SameEffect (writeFixed k t) s u := by
  simp only [SameEffect, writeFixed, h.viewInRange, h.bufAddr, h.bufLen, h.operand]
  split
  · exact ⟨.fault .range, rfl, rfl⟩
  split
  · exact ⟨.fault .short, rfl, rfl⟩
  · exact ⟨.store _ _, rfl, rfl⟩

theorem readVariable_sameEffect (k : WideKind) (t : Tag) (n : Nat) (h : s.SameInputs u) :
    SameEffect (readVariable k t n) s u := by
  simp only [SameEffect, readVariable, h.viewInRange, h.bufLen, h.viewBytes]
  split
  · exact ⟨.fault .width, rfl, rfl⟩
  split
  · exact ⟨.fault .range, rfl, rfl⟩
  split
  · exact ⟨.fault .short, rfl, rfl⟩
  · exact ⟨.value _, rfl, rfl⟩

theorem writeVariable_sameEffect (k : WideKind) (t : Tag) (n : Nat) (h : s.SameInputs u) :
    SameEffect (writeVariable k t n) s u := by
  simp only [SameEffect, writeVariable, h.viewInRange, h.bufAddr, h.bufLen, h.operand]
  split
  · exact ⟨.fault .width, rfl, rfl⟩
  split
  · exact ⟨.fault .range, rfl, rfl⟩
  split
  · exact ⟨.fault .short, rfl, rfl⟩
  split
  · exact ⟨.fault .fit, rfl, rfl⟩
  · exact ⟨.store _ _, rfl, rfl⟩

theorem readBulk_sameEffect (k : Kind) (t : Tag) (h : s.SameInputs u) : SameEffect (readBulk k t) s u := by
  unfold SameEffect readBulk
  rw [h.bulkFault]
  cases bulkFault k u with
  | some c => exact ⟨.fault c, rfl, rfl⟩
  | none => exact ⟨.memory _, by simp [h.bufAddr, h.slAddr, h.slCount, h.mem], rfl⟩

theorem writeBulk_sameEffect (k : Kind) (t : Tag) (h : s.SameInputs u) : SameEffect (writeBulk k t) s u := by
  unfold SameEffect writeBulk
  rw [h.bulkFault]
  cases bulkFault k u with
  | some c => exact ⟨.fault c, rfl, rfl⟩
  | none => exact ⟨.memory _, by simp [h.bufAddr, h.slAddr, h.slCount, h.mem], rfl⟩

/-- The effect of a command is determined by its inputs (R7). -/
theorem exec_sameEffect (i : Instr) (h : s.SameInputs u) : SameEffect (exec i) s u := by
  obtain ⟨k, t, rfl⟩ | ⟨k, t, rfl⟩ | ⟨k, t, n, rfl⟩ | ⟨k, t, n, rfl⟩ | ⟨k, t, rfl⟩ | ⟨k, t, rfl⟩ :=
    Instr.by_operation i
  · simpa [SameEffect] using readFixed_sameEffect k t h
  · simpa [SameEffect] using writeFixed_sameEffect k t h
  · simpa [SameEffect] using readVariable_sameEffect k t n h
  · simpa [SameEffect] using writeVariable_sameEffect k t n h
  · simpa [SameEffect] using readBulk_sameEffect k t h
  · simpa [SameEffect] using writeBulk_sameEffect k t h

/-! What one effect leaves the same in two states -/

theorem Effect.apply_v (e : Effect) (h : s.v = u.v) : (e.apply s).v = (e.apply u).v := by
  cases e with
  | fault c => exact h
  | value p => simp
  | store addr bytes => exact h
  | memory m => exact h

theorem Effect.apply_mem (e : Effect) (h : s.mem = u.mem) : (e.apply s).mem = (e.apply u).mem := by
  cases e with
  | fault c => exact h
  | value p => exact h
  | store addr bytes => simp [h]
  | memory m => rfl

/-- An effect latches the same `STATUS` in both states, or leaves `STATUS` alone in both. -/
theorem Effect.apply_status (e : Effect) (s u : State) :
    (e.apply s).status = (e.apply u).status ∨ (e.apply s).status = s.status ∧ (e.apply u).status = u.status := by
  cases e with
  | fault c => exact .inl rfl
  | value p => exact .inr ⟨rfl, rfl⟩
  | store addr bytes => exact .inr ⟨rfl, rfl⟩
  | memory m => exact .inr ⟨rfl, rfl⟩

end

end Sys2Proof.Machine
end

