-- ==== Sys2Proof/Proofs/Scope.lean ====
section
/-! The obligations of spec/00_scope.md. -/

namespace Sys2Proof.Machine

/-- Settles O39: the command does one effect to both states, and an effect leaves the same `V`, memory and fault in both. -/
theorem commandsArePure : Obligations.CommandsArePure := by
  unfold Obligations.CommandsArePure
  intro i s u s' hAddr hLen hSlAddr hSlCount hv hmem hs hu hexec
  obtain ⟨e, hes, heu⟩ := exec_sameEffect i ⟨hAddr, hLen, hSlAddr, hSlCount, hv, hmem⟩
  obtain rfl : e.apply s = s' := by simpa [hes] using hexec
  refine ⟨e.apply u, heu, (e.apply_v hv).symm, (e.apply_mem hmem).symm, ?_⟩
  obtain hsame | ⟨hkeeps, hkeepu⟩ := e.apply_status s u
  · exact ⟨by rw [hsame], fun _ => hsame.symm⟩
  · simp [hkeeps, hkeepu, hs, hu]

end Sys2Proof.Machine
end

