-- ==== Sys2Proof/Proofs/StateInvariant.lean ====
section
/-! What a command leaves of each part of the state, the legal values of `STATUS`, and that every access keeps the machine's invariant. -/

namespace Sys2Proof

theorem Kind.width_pos (k : Kind) : 0 < k.width := by cases k <;> decide

/-! The operation of each row (spec/30_encoding.md R117), which tells the rows of two operations apart -/

@[simp] theorem fixedRead_op (k : Kind) (t : Tag) : (fixedRead k t).command.op = .read := by cases k <;> rfl

@[simp] theorem fixedWrite_op (k : Kind) (t : Tag) : (fixedWrite k t).command.op = .write := by cases k <;> rfl

@[simp] theorem variableRead_op (k : WideKind) (t : Tag) (n : Nat) : (variableRead k t n).command.op = .readv := by
  cases k <;> rfl

@[simp] theorem variableWrite_op (k : WideKind) (t : Tag) (n : Nat) : (variableWrite k t n).command.op = .writev := by
  cases k <;> rfl

@[simp] theorem bulkRead_op (k : Kind) (t : Tag) : (bulkRead k t).command.op = .readInto := by cases k <;> rfl

@[simp] theorem bulkWrite_op (k : Kind) (t : Tag) : (bulkWrite k t).command.op = .writeInto := by cases k <;> rfl

/-- The commands that set `V`: the reads of a fixed and of a variable width. -/
def ScalarRead (i : Instr) : Prop := (∃ k t, i = fixedRead k t) ∨ (∃ k t n, i = variableRead k t n)

theorem ScalarRead.op {i : Instr} (h : ScalarRead i) : i.command.op = .read ∨ i.command.op = .readv := by
  obtain ⟨k, t, rfl⟩ | ⟨k, t, n, rfl⟩ := h
  · exact .inl (fixedRead_op k t)
  · exact .inr (variableRead_op k t n)

end Sys2Proof

namespace Sys2Proof.Machine

/-! The three outcomes of a command -/

/-- A bulk command that passes its checks has both regions inside the address space. -/
theorem regions_inside_of_bulkFault_none {k : Kind} {s : State} (h : bulkFault k s = none) :
    s.bufAddr.toNat + k.width * s.slCount.toNat ≤ memSize ∧ s.slAddr.toNat + k.width * s.slCount.toNat ≤ memSize := by
  obtain ⟨-, hc⟩ | ⟨-, -, -, hc⟩ | ⟨-, -, -, -, hc⟩ | ⟨hview, hslice, hlen, -, -⟩ := bulkFault_cases k s
  iterate 3 simp [h] at hc
  rw [viewInRange_iff, hlen, State.sliceBytes, Nat.mul_comm] at hview
  rw [sliceInRange_iff, Nat.mul_comm] at hslice
  exact ⟨hview, hslice⟩

/-- A command latches a fault, or it is a scalar read and sets `V`, or it is none and replaces memory by one that is still canonical. -/
theorem exec_cases (i : Instr) (s : State) :
    (∃ c, exec i s = .next (s.raise c)) ∨
    (ScalarRead i ∧ ∃ p, exec i s = .next (s.setV p)) ∨
    (¬ ScalarRead i ∧ ∃ m, (s.mem.wf → m.wf) ∧ exec i s = .next { s with mem := m }) := by
  obtain ⟨k, t, rfl⟩ | ⟨k, t, rfl⟩ | ⟨k, t, n, rfl⟩ | ⟨k, t, n, rfl⟩ | ⟨k, t, rfl⟩ | ⟨k, t, rfl⟩ := Instr.by_operation i
  · rw [exec_fixedRead]
    obtain ⟨-, h⟩ | ⟨-, -, h⟩ | ⟨-, -, h⟩ := readFixed_cases (k := k) (t := t) (s := s) rfl
    · exact .inl ⟨_, h⟩
    · exact .inl ⟨_, h⟩
    · exact .inr (.inl ⟨.inl ⟨k, t, rfl⟩, _, h⟩)
  · rw [exec_fixedWrite]
    obtain ⟨-, h⟩ | ⟨-, -, h⟩ | ⟨hview, hlen, h⟩ := writeFixed_cases (k := k) (t := t) (s := s) rfl
    · exact .inl ⟨_, h⟩
    · exact .inl ⟨_, h⟩
    · rw [viewInRange_iff] at hview
      exact .inr (.inr ⟨fun hr => by simpa using hr.op, _, fun hwf => Memory.wf_writeBytes hwf (by rw [dis_length]; omega), h⟩)
  · rw [exec_variableRead]
    obtain ⟨-, h⟩ | ⟨-, -, h⟩ | ⟨-, -, -, h⟩ | ⟨-, -, -, h⟩ := readVariable_cases (k := k) (t := t) (n := n) (s := s) rfl
    · exact .inl ⟨_, h⟩
    · exact .inl ⟨_, h⟩
    · exact .inl ⟨_, h⟩
    · exact .inr (.inl ⟨.inr ⟨k, t, n, rfl⟩, _, h⟩)
  · rw [exec_variableWrite]
    obtain ⟨-, h⟩ | ⟨-, -, h⟩ | ⟨-, -, -, h⟩ | ⟨-, -, -, -, h⟩ | ⟨-, hview, hlen, -, h⟩ :=
      writeVariable_cases (k := k) (t := t) (n := n) (s := s) rfl
    · exact .inl ⟨_, h⟩
    · exact .inl ⟨_, h⟩
    · exact .inl ⟨_, h⟩
    · exact .inl ⟨_, h⟩
    · rw [viewInRange_iff] at hview
      exact .inr (.inr ⟨fun hr => by simpa using hr.op, _, fun hwf => Memory.wf_writeBytes hwf (by rw [dis_length]; omega), h⟩)
  · rw [exec_bulkRead]
    obtain ⟨c, -, h⟩ | ⟨hnone, h⟩ := readBulk_cases (k := k) (t := t) (s := s) rfl
    · exact .inl ⟨c, h⟩
    · obtain ⟨-, hslice⟩ := regions_inside_of_bulkFault_none hnone
      exact .inr (.inr ⟨fun hr => by simpa using hr.op, _, fun hwf => convert_wf hwf hslice, h⟩)
  · rw [exec_bulkWrite]
    obtain ⟨c, -, h⟩ | ⟨hnone, h⟩ := writeBulk_cases (k := k) (t := t) (s := s) rfl
    · exact .inl ⟨c, h⟩
    · obtain ⟨hview, -⟩ := regions_inside_of_bulkFault_none hnone
      exact .inr (.inr ⟨fun hr => by simpa using hr.op, _, fun hwf => convert_wf hwf hview, h⟩)

/-! The scalar commands on a view that is too short, and on a count that is not supported -/

section
variable {k : Kind} {j : WideKind} {t : Tag} {n : Nat} {s : State}

theorem readFixed_short (hv : s.viewInRange = true) (hl : s.bufLen.toNat < k.width) :
    readFixed k t s = .next (s.raise .short) := by simp [readFixed, hv, hl]

theorem writeFixed_short (hv : s.viewInRange = true) (hl : s.bufLen.toNat < k.width) :
    writeFixed k t s = .next (s.raise .short) := by simp [writeFixed, hv, hl]

theorem readVariable_short (hn : j.supports n = true) (hv : s.viewInRange = true) (hl : s.bufLen.toNat < n) :
    readVariable j t n s = .next (s.raise .short) := by simp [readVariable, hn, hv, hl]

theorem writeVariable_short (hn : j.supports n = true) (hv : s.viewInRange = true) (hl : s.bufLen.toNat < n) :
    writeVariable j t n s = .next (s.raise .short) := by simp [writeVariable, hn, hv, hl]

theorem readVariable_width (hn : j.supports n = false) : readVariable j t n s = .next (s.raise .width) := by
  simp [readVariable, hn]

theorem writeVariable_width (hn : j.supports n = false) : writeVariable j t n s = .next (s.raise .width) := by
  simp [writeVariable, hn]

end

/-! The legal values of `STATUS` -/

/-- Every value of `ERR` from 1 to 7 is the code of a cause (spec/60_exceptions.md R291). -/
theorem FaultCode.exists_code {e : BitVec 4} (hlow : 1 ≤ e.toNat) (hhigh : e.toNat ≤ 7) : ∃ c : FaultCode, e = c.code := by
  have hseven : e.toNat = 1 ∨ e.toNat = 2 ∨ e.toNat = 3 ∨ e.toNat = 4 ∨ e.toNat = 5 ∨ e.toNat = 6 ∨ e.toNat = 7 := by omega
  obtain h | h | h | h | h | h | h := hseven
  · exact ⟨.illegal, BitVec.eq_of_toNat_eq h⟩
  · exact ⟨.width, BitVec.eq_of_toNat_eq h⟩
  · exact ⟨.range, BitVec.eq_of_toNat_eq h⟩
  · exact ⟨.short, BitVec.eq_of_toNat_eq h⟩
  · exact ⟨.len, BitVec.eq_of_toNat_eq h⟩
  · exact ⟨.overlap, BitVec.eq_of_toNat_eq h⟩
  · exact ⟨.fit, BitVec.eq_of_toNat_eq h⟩

theorem FaultCode.code_bounds (c : FaultCode) : 1 ≤ c.code.toNat ∧ c.code.toNat ≤ 7 := by cases c <;> decide

/-- `STATUS` is legal exactly when it is clear or holds one of the seven causes. -/
theorem Status.legal_iff (st : Status) : st.legal ↔ st = Status.clear ∨ ∃ c, st = Status.latched c := by
  constructor
  · obtain ⟨fault, err⟩ := st
    rintro (⟨rfl, rfl⟩ | ⟨rfl, hlow, hhigh⟩)
    · exact .inl rfl
    · obtain ⟨c, rfl⟩ := FaultCode.exists_code hlow hhigh
      exact .inr ⟨c, rfl⟩
  · rintro (rfl | ⟨c, rfl⟩)
    · exact .inl ⟨rfl, rfl⟩
    · exact .inr ⟨rfl, c.code_bounds⟩

theorem Status.legal_clear : Status.clear.legal := (Status.legal_iff _).mpr (.inl rfl)

theorem Status.legal_latched (c : FaultCode) : (Status.latched c).legal := (Status.legal_iff _).mpr (.inr ⟨c, rfl⟩)

/-! The accesses keep the invariant -/

theorem State.Inv.raise {s : State} (h : s.Inv) (c : FaultCode) : (s.raise c).Inv := ⟨h.1, Status.legal_latched c⟩

theorem State.Inv_resetBlock {s : State} (h : s.mem.wf) : s.resetBlock.Inv := ⟨h, Status.legal_clear⟩

theorem State.Inv.writeReg {s : State} (h : s.Inv) (r : Reg) (d : Word) : (s.writeReg r d).Inv := by
  simpa [State.Inv] using h

section
variable {s s' : State}

theorem exec_keeps_Inv {i : Instr} (h : s.Inv) (hi : exec i s = .next s') : s'.Inv := by
  obtain ⟨c, he⟩ | ⟨-, p, he⟩ | ⟨-, m, hwf, he⟩ := exec_cases i s <;> obtain rfl := Host.Outcome.next.inj (he.symm.trans hi)
  · exact h.raise c
  · exact h
  · exact ⟨hwf h.1, h.2⟩

theorem execute_keeps_Inv {w : Word} (h : s.Inv) (hw : execute w s = .next s') : s'.Inv := by
  obtain ⟨e, -, he⟩ | ⟨i, -, he⟩ := execute_cases w s <;> rw [he] at hw
  · obtain rfl := Host.Outcome.next.inj hw
    exact h.raise .illegal
  · exact exec_keeps_Inv h hw

theorem hostWrite_keeps_Inv {offset : Nat} {d : Word} (h : s.Inv) (hw : hostWrite offset d s = .next s') : s'.Inv := by
  obtain ⟨-, he⟩ | ⟨-, -, he⟩ | ⟨-, -, he⟩ | ⟨-, r, -, -, he⟩ := hostWrite_cases offset d s <;> rw [he] at hw
  · obtain rfl := Host.Outcome.next.inj hw
    exact h
  · obtain rfl := Host.Outcome.next.inj hw
    exact h
  · exact execute_keeps_Inv (s := { s with cmd := d }) h hw
  · obtain rfl := Host.Outcome.next.inj hw
    exact h.writeReg r d

/-- A cut command answers the reset of a state whose memory mixes the memory before with that of the completed write. -/
theorem cutCommand_next {d : Word} (hc : cutCommand d s = .next s') :
    ∃ done, hostWrite 0x00 d s = .next done ∧
      s' = { s with mem := Memory.mix (Config.resetKeepsOld s.cuts) s.mem done.mem, cuts := s.cuts + 1 }.resetBlock := by
  unfold cutCommand at hc
  split at hc
  · next done hdone => exact ⟨done, hdone, (Host.Outcome.next.inj hc).symm⟩
  · cases hc
  · cases hc

theorem cutCommand_keeps_Inv {d : Word} (h : s.Inv) (hc : cutCommand d s = .next s') : s'.Inv := by
  obtain ⟨done, hdone, rfl⟩ := cutCommand_next hc
  exact State.Inv_resetBlock (Memory.wf_mix _ h.1 (hostWrite_keeps_Inv h hdone).1)

theorem serve_keeps_Inv {a : HostAccess} (h : s.Inv) (ha : serve a s = .next s') : s'.Inv := by
  cases a with
  | regRead size offset =>
    simp only [serve] at ha
    split at ha
    · obtain rfl := Host.Outcome.next.inj ha
      exact h
    · cases ha
  | regWrite size offset data =>
    simp only [serve] at ha
    split at ha
    · exact hostWrite_keeps_Inv h ha
    · cases ha
  | reset =>
    obtain rfl := Host.Outcome.next.inj ha
    exact State.Inv_resetBlock h.1
  | memRead addr =>
    simp only [serve, hostMemRead] at ha
    split at ha
    · obtain rfl := Host.Outcome.next.inj ha
      exact h
    · cases ha
  | memWrite addr data =>
    simp only [serve, hostMemWrite] at ha
    split at ha
    · next haddr =>
      obtain rfl := Host.Outcome.next.inj ha
      exact ⟨Memory.wf_write h.1 haddr data, h.2⟩
    · cases ha
  | cutCommand data => exact cutCommand_keeps_Inv h ha

end

end Sys2Proof.Machine
end

