-- ==== Sys2Proof/Proofs/MachineState.lean ====
section
/-! The obligations of spec/10_state.md. -/

namespace Sys2Proof.Machine

/-- Settles O50: a step is idle or serves one access, and every access keeps the invariant. -/
theorem stepKeepsInvariant : Obligations.StepKeepsInvariant := by
  unfold Obligations.StepKeepsInvariant
  intro s s' hinv hstep
  cases hp : s.pending with
  | nil =>
    rw [step_idle s hp] at hstep
    obtain rfl := Host.Outcome.next.inj hstep
    exact hinv
  | cons a rest =>
    rw [step_serves hp] at hstep
    exact serve_keeps_Inv (s := { s with pending := rest }) hinv hstep

/-- Settles O38, by the three outcomes of a command. -/
theorem operandRegistersKept : Obligations.OperandRegistersKept := by
  unfold Obligations.OperandRegistersKept
  intro i s s' hi
  obtain ⟨c, he⟩ | ⟨hread, p, he⟩ | ⟨hread, m, -, he⟩ := exec_cases i s <;> obtain rfl := Host.Outcome.next.inj (he.symm.trans hi)
  · simp
  · have hnot (hf : ∀ k t, i ≠ fixedRead k t) (hv : ∀ k t n, i ≠ variableRead k t n) : False :=
      hread.elim (fun ⟨k, t, h⟩ => hf k t h) fun ⟨k, t, n, h⟩ => hv k t n h
    exact ⟨rfl, rfl, rfl, rfl, rfl, rfl, rfl, rfl, fun hf hv => (hnot hf hv).elim, fun _ => rfl, fun _ => rfl⟩
  · exact ⟨rfl, rfl, rfl, rfl, rfl, rfl, rfl, rfl, fun _ _ => ⟨rfl, rfl, rfl, rfl⟩, fun hr => absurd hr hread, fun _ => rfl⟩

/-! The state straight after reset: every register is 0, so the view and the slice are empty and in range -/

theorem Status.word_clear : Status.clear.word = 0 := by decide

theorem State.readReg_resetBlock (s : State) (r : Reg) : s.resetBlock.readReg r = 0 := by
  cases r with
  | status => exact Status.word_clear
  | _ => rfl

theorem State.v_resetBlock (s : State) : s.resetBlock.v = 0 := by simp [State.v]

theorem State.resetBlock_reset : State.reset.resetBlock = State.reset := rfl

theorem State.viewInRange_resetBlock (s : State) : s.resetBlock.viewInRange = true := by simp [viewInRange_iff]

theorem bulkFault_resetBlock (k : Kind) (s : State) : bulkFault k s.resetBlock = none := by
  simp [bulkFault, State.viewInRange_resetBlock, State.sliceInRange, State.sliceBytes, overlap, inRange]

/-- Settles O45. -/
theorem resetClearsRegisters : Obligations.ResetClearsRegisters := by
  unfold Obligations.ResetClearsRegisters
  refine ⟨fun r => ?_, fun s => ⟨s.resetBlock, rfl, s.readReg_resetBlock, rfl, rfl, s.v_resetBlock, rfl⟩⟩
  rw [← State.resetBlock_reset]
  exact State.reset.readReg_resetBlock r

/-- Settles O46: the view is in range and of length 0, shorter than every width and every supported count; the bulk loop has no
element to move. -/
theorem commandsStraightAfterReset : Obligations.CommandsStraightAfterReset := by
  unfold Obligations.CommandsStraightAfterReset
  intro t s
  have hview := s.viewInRange_resetBlock
  refine ⟨fun k => ?_, fun k n => ?_⟩
  · have hshort : s.resetBlock.bufLen.toNat < k.width := k.width_pos
    rw [exec_fixedRead, exec_fixedWrite, exec_bulkRead, exec_bulkWrite]
    refine ⟨readFixed_short hview hshort, writeFixed_short hview hshort, ?_, ?_⟩
    · rw [readBulk, bulkFault_resetBlock]; rfl
    · rw [writeBulk, bulkFault_resetBlock]; rfl
  · rw [exec_variableRead, exec_variableWrite]
    split
    · next hn =>
      have hshort : s.resetBlock.bufLen.toNat < n := hn.1
      have hsup := (supports_iff k n).mpr hn
      exact ⟨readVariable_short hsup hview hshort, writeVariable_short hsup hview hshort⟩
    · next hn =>
      have hsup : k.supports n = false := by rwa [← supports_iff, Bool.not_eq_true] at hn
      exact ⟨readVariable_width hsup, writeVariable_width hsup⟩

/-- Settles O51. -/
theorem resetMeetsInvariants : Obligations.ResetMeetsInvariants :=
  ⟨State.Inv_resetBlock (s := State.reset) Memory.wf_nil, fun hfault => absurd hfault Bool.false_ne_true⟩

/-- Settles O53: the word of `STATUS` when it is clear, and with each of the seven causes. -/
theorem statusWordValues : Obligations.StatusWordValues := by
  unfold Obligations.StatusWordValues
  intro s ⟨_, hlegal⟩
  obtain h | ⟨c, h⟩ := (Status.legal_iff s.status).mp hlegal <;> rw [State.statusWord, h]
  · decide
  · cases c <;> decide

end Sys2Proof.Machine
end

