-- ==== Sys2Proof/Proofs/ByteOrder.lean ====
section
/-! Assembly and disassembly of patterns (spec/20_memory.md section 2). Each fact is proved for little-endian, along the list of bytes
or the byte count, and big-endian is little-endian on the reversed bytes. -/

namespace Sys2Proof.Machine

/-! Little-endian -/

@[simp] theorem asmLittle_nil : asmLittle [] = 0 := rfl

@[simp] theorem asmLittle_cons (b : Byte) (bytes : List Byte) :
    asmLittle (b :: bytes) = b.toNat + 2 ^ 8 * asmLittle bytes := by
  simp [asmLittle, Nat.shiftLeft_eq, Nat.mul_comm]

@[simp] theorem disLittle_zero (p : Nat) : disLittle 0 p = [] := rfl

@[simp] theorem disLittle_succ (n p : Nat) :
    disLittle (n + 1) p = BitVec.ofNat 8 p :: disLittle n (p / 2 ^ 8) := by
  simp [disLittle, Nat.shiftRight_eq_div_pow]

/-- The bytes are the digits of the pattern in base 256, the least significant first. -/
theorem asmLittle_eq_ofDigits (bytes : List Byte) :
    asmLittle bytes = Nat.ofDigits (2 ^ 8) (bytes.map BitVec.toNat) := by
  induction bytes with
  | nil => rfl
  | cons b bytes ih => simp [ih, Nat.ofDigits_cons]

theorem asmLittle_lt (bytes : List Byte) : asmLittle bytes < 2 ^ (8 * bytes.length) := by
  have hdigit : ∀ d ∈ bytes.map BitVec.toNat, d < 2 ^ 8 := by
    simp only [List.forall_mem_map]
    exact fun b _ => b.isLt
  have hlt := Nat.ofDigits_lt_base_pow_length (by decide) hdigit
  rwa [← asmLittle_eq_ofDigits, List.length_map, ← pow_mul] at hlt

theorem asmLittle_concat (bytes : List Byte) (b : Byte) :
    asmLittle (bytes ++ [b]) = asmLittle bytes + b.toNat * 2 ^ (8 * bytes.length) := by
  simp only [asmLittle_eq_ofDigits, List.map_append, Nat.ofDigits_append, List.length_map, List.map_cons, List.map_nil,
    Nat.ofDigits_singleton, ← pow_mul, Nat.mul_comm]

theorem disLittle_succ_concat (n p : Nat) :
    disLittle (n + 1) p = disLittle n p ++ [BitVec.ofNat 8 (p / 2 ^ (8 * n))] := by
  induction n generalizing p with
  | zero => simp
  | succ n ih =>
    have hplace : p / 2 ^ 8 / 2 ^ (8 * n) = p / 2 ^ (8 * (n + 1)) := by
      rw [Nat.div_div_eq_div_mul, ← pow_add, Nat.mul_succ, Nat.add_comm]
    rw [disLittle_succ, ih, disLittle_succ n, hplace, List.cons_append]

theorem disLittle_getElem? {n i : Nat} (p : Nat) (h : i < n) :
    (disLittle n p)[i]? = some (BitVec.ofNat 8 (p / 2 ^ (8 * i))) := by
  induction n with
  | zero => omega
  | succ n ih =>
    rw [disLittle_succ_concat]
    obtain hlt | rfl := Nat.lt_succ_iff_lt_or_eq.mp h
    · rw [List.getElem?_append_left (by simpa using hlt), ih hlt]
    · simp

/-- Disassembly into `n` bytes keeps the low `8n` bits of the pattern. -/
theorem asmLittle_disLittle (n p : Nat) : asmLittle (disLittle n p) = p % 2 ^ (8 * n) := by
  induction n generalizing p with
  | zero => simp [Nat.mod_one]
  | succ n ih =>
    rw [disLittle_succ, asmLittle_cons, ih, BitVec.toNat_ofNat, ← Nat.mod_mul, ← pow_add, Nat.mul_succ, Nat.add_comm]

theorem disLittle_asmLittle (bytes : List Byte) : disLittle bytes.length (asmLittle bytes) = bytes := by
  induction bytes with
  | nil => rfl
  | cons b bytes ih =>
    have hfirst : BitVec.ofNat 8 (b.toNat + 2 ^ 8 * asmLittle bytes) = b := by
      apply BitVec.eq_of_toNat_eq
      rw [BitVec.toNat_ofNat, Nat.add_mul_mod_self_left, Nat.mod_eq_of_lt b.isLt]
    have hrest : (b.toNat + 2 ^ 8 * asmLittle bytes) / 2 ^ 8 = asmLittle bytes := by
      rw [Nat.add_mul_div_left _ _ (by decide), Nat.div_eq_of_lt b.isLt, Nat.zero_add]
    rw [List.length_cons, asmLittle_cons, disLittle_succ, hfirst, hrest, ih]

/-! Big-endian -/

@[simp] theorem asmBig_cons (b : Byte) (bytes : List Byte) :
    asmBig (b :: bytes) = b.toNat * 2 ^ (8 * bytes.length) + asmBig bytes := by
  simp [asmBig, Nat.shiftLeft_eq]

theorem asmBig_eq_asmLittle_reverse (bytes : List Byte) : asmBig bytes = asmLittle bytes.reverse := by
  induction bytes with
  | nil => rfl
  | cons b bytes ih => rw [asmBig_cons, ih, List.reverse_cons, asmLittle_concat, List.length_reverse, Nat.add_comm]

theorem disBig_eq_disLittle_reverse (n p : Nat) : disBig n p = (disLittle n p).reverse := by
  induction n with
  | zero => rfl
  | succ n ih => rw [disBig, ih, disLittle_succ_concat, List.reverse_concat, Nat.shiftRight_eq_div_pow]

/-! Both orders -/

theorem asm_little (bytes : List Byte) : asm .little bytes = asmLittle bytes := rfl

theorem asm_big (bytes : List Byte) : asm .big bytes = asmLittle bytes.reverse := asmBig_eq_asmLittle_reverse bytes

theorem dis_big (n p : Nat) : dis .big n p = (disLittle n p).reverse := disBig_eq_disLittle_reverse n p

/-- The sum of R76 and R77, with each order's place of byte `i`. -/
theorem asm_eq_sum (o : Order) (bytes : List Byte) :
    asm o bytes = ∑ i ∈ Finset.range bytes.length, (bytes.getD i 0).toNat * 2 ^ (8 * bytePlace o bytes.length i) := by
  induction bytes with
  | nil => cases o <;> rfl
  | cons b bytes ih =>
    rw [List.length_cons, Finset.sum_range_succ']
    cases o with
    | big =>
      have hfirst : asm .big (b :: bytes) = asm .big bytes + b.toNat * 2 ^ (8 * bytes.length) :=
        (asmBig_cons b bytes).trans (Nat.add_comm _ _)
      have hplace (i : Nat) : bytePlace .big (bytes.length + 1) (i + 1) = bytePlace .big bytes.length i := by
        simp only [bytePlace]; omega
      simp only [hfirst, ih, hplace, List.getD_cons_succ]
      simp [bytePlace]
    | little =>
      have hfirst : asm .little (b :: bytes) = asm .little bytes * 2 ^ 8 + b.toNat := by
        rw [Nat.mul_comm, Nat.add_comm]; exact asmLittle_cons b bytes
      simp only [hfirst, ih, Finset.sum_mul, bytePlace, List.getD_cons_succ, Nat.mul_succ, pow_add, Nat.mul_assoc]
      simp

theorem asm_lt (o : Order) (bytes : List Byte) : asm o bytes < 2 ^ (8 * bytes.length) := by
  cases o with
  | big => simpa [asm_big] using asmLittle_lt bytes.reverse
  | little => exact asmLittle_lt bytes

/-- The byte formulas of R78. -/
theorem dis_getElem? (o : Order) {n i : Nat} (p : Nat) (h : i < n) : (dis o n p)[i]? = some (encodedByte o n p i) := by
  cases o with
  | big =>
    rw [dis_big, List.getElem?_reverse (by simpa using h), disLittle_length]
    exact disLittle_getElem? p (by omega)
  | little => exact disLittle_getElem? p h

theorem asm_dis (o : Order) (n p : Nat) : asm o (dis o n p) = p % 2 ^ (8 * n) := by
  cases o with
  | big => rw [asm_big, dis_big, List.reverse_reverse]; exact asmLittle_disLittle n p
  | little => exact asmLittle_disLittle n p

theorem dis_asm (o : Order) (bytes : List Byte) : dis o bytes.length (asm o bytes) = bytes := by
  cases o with
  | big =>
    have hlittle := disLittle_asmLittle bytes.reverse
    rw [List.length_reverse] at hlittle
    rw [asm_big, dis_big, hlittle, List.reverse_reverse]
  | little => exact disLittle_asmLittle bytes

theorem asm_singleton (o : Order) (b : Byte) : asm o [b] = b.toNat := by
  cases o with
  | big => simp [asm_big]
  | little => simp [asm_little]

/-! The effective order -/

/-- A tag and the tag it stands for name one order (R75). -/
@[simp] theorem resolve_resolvedTag (t : Tag) : resolve (resolvedTag t) = resolve t := by
  cases t with
  | be => rfl
  | le => rfl
  | ne =>
    cases hbig : Config.nativeBig with
    | true => simp [resolvedTag, resolve, nativeOrder, hbig]
    | false => simp [resolvedTag, resolve, nativeOrder, hbig]

/-! A command uses its tag only through the order the tag resolves to -/

section
variable {t u : Tag} (h : resolve t = resolve u) (k : Kind) (j : WideKind) (n : Nat) (s : State)
include h

theorem readFixed_resolve_congr : readFixed k t s = readFixed k u s := by simp only [readFixed, h]

theorem writeFixed_resolve_congr : writeFixed k t s = writeFixed k u s := by simp only [writeFixed, h]

theorem readVariable_resolve_congr : readVariable j t n s = readVariable j u n s := by simp only [readVariable, h]

theorem writeVariable_resolve_congr : writeVariable j t n s = writeVariable j u n s := by simp only [writeVariable, h]

theorem readBulk_resolve_congr : readBulk k t s = readBulk k u s := by simp only [readBulk, h]

theorem writeBulk_resolve_congr : writeBulk k t s = writeBulk k u s := by simp only [writeBulk, h]

end

end Sys2Proof.Machine
end

