-- ==== Sys2Proof/Proofs/MemoryRules.lean ====
section
/-! The obligations of spec/20_memory.md. -/

namespace Sys2Proof.Machine

/-- Settles O6: the positional sum and the bound of `asm`, at each order. -/
theorem assemblyIsPositionalSum : Obligations.AssemblyIsPositionalSum := by
  unfold Obligations.AssemblyIsPositionalSum
  exact fun bytes => ⟨asm_eq_sum .big bytes, asm_eq_sum .little bytes, asm_lt .big bytes, asm_lt .little bytes⟩

/-- Settles O7: the length and the byte formula of `dis`, at each order. -/
theorem disassemblyByteByByte : Obligations.DisassemblyByteByByte := by
  unfold Obligations.DisassemblyByteByByte
  exact fun n p => ⟨dis_length .big n p, dis_length .little n p, fun i hi => ⟨dis_getElem? .big p hi, dis_getElem? .little p hi⟩⟩

/-- Settles O8: a pattern below `2^(8n)` loses no bit to the reduction modulo `2^(8n)`. -/
theorem byteOrderLaws : Obligations.ByteOrderLaws := by
  unfold Obligations.ByteOrderLaws
  refine ⟨fun o n p hp => ?_, dis_asm, dis_big, asm_singleton⟩
  rw [asm_dis, Nat.mod_eq_of_lt hp]

/-- Settles O9: `ne` and the tag it stands for resolve to one order, and a command uses its tag through that order alone. -/
theorem nativeTagIsAnAlias : Obligations.NativeTagIsAnAlias := by
  unfold Obligations.NativeTagIsAnAlias
  have horder : resolve .ne = resolve (resolvedTag .ne) := (resolve_resolvedTag .ne).symm
  refine ⟨rfl, rfl, rfl, fun s => ⟨fun k => ?_, fun k n => ?_⟩⟩
  · rw [exec_fixedRead, exec_fixedRead, exec_fixedWrite, exec_fixedWrite, exec_bulkRead, exec_bulkRead, exec_bulkWrite,
      exec_bulkWrite]
    exact ⟨readFixed_resolve_congr horder k s, writeFixed_resolve_congr horder k s, readBulk_resolve_congr horder k s,
      writeBulk_resolve_congr horder k s⟩
  · rw [exec_variableRead, exec_variableRead, exec_variableWrite, exec_variableWrite]
    exact ⟨readVariable_resolve_congr horder k n s, writeVariable_resolve_congr horder k n s⟩

/-! What each access that the port takes is served with -/

theorem serve_regRead {offset : Nat} (h : offset % 4 = 0) (s : State) : serve (.regRead .word offset) s = hostRead offset s :=
  if_pos ((portTakes_iff .word offset).mpr ⟨rfl, h⟩)

theorem serve_regWrite {offset : Nat} (h : offset % 4 = 0) (d : Word) (s : State) :
    serve (.regWrite .word offset d) s = hostWrite offset d s :=
  if_pos ((portTakes_iff .word offset).mpr ⟨rfl, h⟩)

/-- Settles O41: a step serves the access at the head of `pending` on the state with the rest pending. -/
theorem stepServesOldestAccess : Obligations.StepServesOldestAccess := by
  unfold Obligations.StepServesOldestAccess
  intro s rest s₀
  refine ⟨fun offset haligned hp => ?_, fun offset d haligned hp => ?_, fun hp => ?_⟩
  · rw [step_serves hp, serve_regRead haligned]
  · rw [step_serves hp, serve_regWrite haligned]
  · exact ⟨s₀.resetBlock, step_serves hp, s₀.readReg_resetBlock, rfl, rfl, rfl, rfl⟩

end Sys2Proof.Machine
end

