-- ==== Sys2Proof/Proofs/DecoderFacts.lean ====
section
/-! What the decoder and the encoder do (spec/30_encoding.md section 1). Both are tied to the four fields of a command: `decode` answers
the command whose fields it reads, and `encode` is the word whose value is the positional sum of the fields. -/

namespace Sys2Proof

/-! The codes of the fields, both ways (R112, R113, R114) -/

theorem opOf_eq_some_iff (c : Nat) (o : Op) : opOf c = some o ↔ o.code = c := by
  constructor
  · intro h
    unfold opOf at h
    split at h <;> cases h <;> rfl
  · rintro rfl
    cases o <;> rfl

theorem tagOf_eq_some_iff (c : Nat) (t : Tag) : tagOf c = some t ↔ t.code = c := by
  constructor
  · intro h
    unfold tagOf at h
    split at h <;> cases h <;> rfl
  · rintro rfl
    cases t <;> rfl

theorem kindOf_eq_some_iff (c : Nat) (k : Kind) : kindOf c = some k ↔ k.code = c := by
  constructor
  · intro h
    unfold kindOf at h
    split at h <;> cases h <;> rfl
  · rintro rfl
    cases k <;> rfl

theorem wideOf_eq_some_iff (k : Kind) (j : WideKind) : wideOf k = some j ↔ j.kind = k := by
  cases k <;> cases j <;> decide

theorem WideKind.kind_injective : Function.Injective WideKind.kind := fun j k h =>
  Option.some.inj (((wideOf_eq_some_iff k.kind j).mpr h).symm.trans ((wideOf_eq_some_iff k.kind k).mpr rfl))

theorem Op.exists_code_iff (c : Nat) : (∃ o : Op, o.code = c) ↔ 1 ≤ c ∧ c ≤ 6 := by
  constructor
  · rintro ⟨o, rfl⟩
    cases o <;> decide
  · rintro ⟨hlow, hhigh⟩
    interval_cases c
    exacts [⟨.read, rfl⟩, ⟨.write, rfl⟩, ⟨.readv, rfl⟩, ⟨.writev, rfl⟩, ⟨.readInto, rfl⟩, ⟨.writeInto, rfl⟩]

theorem Tag.exists_code_iff (c : Nat) : (∃ t : Tag, t.code = c) ↔ c < 3 := by
  constructor
  · rintro ⟨t, rfl⟩
    cases t <;> decide
  · intro h
    interval_cases c
    exacts [⟨.be, rfl⟩, ⟨.le, rfl⟩, ⟨.ne, rfl⟩]

theorem Kind.exists_code_iff (c : Nat) : (∃ k : Kind, k.code = c) ↔ c ∈ [0, 1, 2, 3, 4, 5, 6, 7, 9, 10] := by
  constructor
  · rintro ⟨k, rfl⟩
    cases k <;> decide
  · intro h
    fin_cases h
    exacts [⟨.u16, rfl⟩, ⟨.u32, rfl⟩, ⟨.u64, rfl⟩, ⟨.u128, rfl⟩, ⟨.i16, rfl⟩, ⟨.i32, rfl⟩, ⟨.i64, rfl⟩, ⟨.i128, rfl⟩,
      ⟨.f32, rfl⟩, ⟨.f64, rfl⟩]

theorem Op.code_lt (o : Op) : o.code < 16 := by cases o <;> decide

theorem Tag.code_lt (t : Tag) : t.code < 3 := by cases t <;> decide

theorem Kind.code_lt (k : Kind) : k.code < 16 := by cases k <;> decide

/-! The operations with a byte count and the kinds they take (R114, R115) -/

theorem Op.code_mem_variable_iff (o : Op) : o.code ∈ [3, 4] ↔ o = .readv ∨ o = .writev := by cases o <;> decide

theorem Kind.code_mem_wide_iff (k : Kind) : k.code ∈ [2, 3, 6, 7] ↔ ∃ j : WideKind, j.kind = k := by
  constructor
  · intro h
    cases k with
    | u64 => exact ⟨.u64, rfl⟩
    | i64 => exact ⟨.i64, rfl⟩
    | u128 => exact ⟨.u128, rfl⟩
    | i128 => exact ⟨.i128, rfl⟩
    | u16 | i16 | u32 | i32 | f32 | f64 => exact absurd h (by decide)
  · rintro ⟨j, rfl⟩
    cases j <;> decide

/-! The fields of each row (R117) -/

@[simp] theorem fixedRead_command (k : Kind) (t : Tag) : (fixedRead k t).command = ⟨.read, k, t, 0⟩ := by cases k <;> rfl

@[simp] theorem fixedWrite_command (k : Kind) (t : Tag) : (fixedWrite k t).command = ⟨.write, k, t, 0⟩ := by cases k <;> rfl

@[simp] theorem variableRead_command (k : WideKind) (t : Tag) (n : Nat) :
    (variableRead k t n).command = ⟨.readv, k.kind, t, n⟩ := by
  cases k <;> rfl

@[simp] theorem variableWrite_command (k : WideKind) (t : Tag) (n : Nat) :
    (variableWrite k t n).command = ⟨.writev, k.kind, t, n⟩ := by
  cases k <;> rfl

@[simp] theorem bulkRead_command (k : Kind) (t : Tag) : (bulkRead k t).command = ⟨.readInto, k, t, 0⟩ := by cases k <;> rfl

@[simp] theorem bulkWrite_command (k : Kind) (t : Tag) : (bulkWrite k t).command = ⟨.writeInto, k, t, 0⟩ := by cases k <;> rfl

/-- A command is well formed when its count fits the field `N`; a command without a count has 0 there. -/
theorem Instr.wellFormed_iff (i : Instr) : i.wellFormed = true ↔ i.command.n < 32 := by
  cases i <;> simp [Instr.wellFormed, Instr.command]

theorem instr_command (i : Instr) : i.command.instr = .ok i := by cases i <;> rfl

/-- A command without a count is taken only with `N = 0`. -/
theorem countless_eq_ok_iff {e : DecodeError} {n : Nat} {i j : Instr} :
    (if n = 0 then Except.ok j else .error e) = .ok i ↔ n = 0 ∧ j = i := by
  split <;> simp_all

/-- A tuple of fields names the command that has these fields, and no other. -/
theorem Command.instr_eq_ok_iff (c : Command) (i : Instr) : c.instr = .ok i ↔ i.command = c := by
  refine ⟨fun h => ?_, fun h => h ▸ instr_command i⟩
  obtain ⟨op, kind, tag, n⟩ := c
  cases op with
  | read =>
    obtain ⟨rfl, rfl⟩ := countless_eq_ok_iff.mp h
    exact fixedRead_command kind tag
  | write =>
    obtain ⟨rfl, rfl⟩ := countless_eq_ok_iff.mp h
    exact fixedWrite_command kind tag
  | readv =>
    cases hk : wideOf kind with
    | none => simp [Command.instr, hk] at h
    | some j =>
      obtain rfl := (wideOf_eq_some_iff kind j).mp hk
      obtain rfl : variableRead j tag n = i := by simpa [Command.instr, hk] using h
      exact variableRead_command j tag n
  | writev =>
    cases hk : wideOf kind with
    | none => simp [Command.instr, hk] at h
    | some j =>
      obtain rfl := (wideOf_eq_some_iff kind j).mp hk
      obtain rfl : variableWrite j tag n = i := by simpa [Command.instr, hk] using h
      exact variableWrite_command j tag n
  | readInto =>
    obtain ⟨rfl, rfl⟩ := countless_eq_ok_iff.mp h
    exact bulkRead_command kind tag
  | writeInto =>
    obtain ⟨rfl, rfl⟩ := countless_eq_ok_iff.mp h
    exact bulkWrite_command kind tag

theorem Instr.command_injective : Function.Injective Instr.command := fun i j h =>
  Except.ok.inj ((instr_command i).symm.trans ((Command.instr_eq_ok_iff i.command j).mpr h.symm))

/-- Which tuples of fields are the fields of a command (R114, R115). -/
theorem Command.exists_instr_iff (c : Command) :
    (∃ i : Instr, i.command = c) ↔
      (c.op.code ∈ [3, 4] → c.kind.code ∈ [2, 3, 6, 7]) ∧ (c.op.code ∉ [3, 4] → c.n = 0) := by
  rw [Op.code_mem_variable_iff, Kind.code_mem_wide_iff]
  constructor
  · rintro ⟨i, rfl⟩
    obtain ⟨k, t, rfl⟩ | ⟨k, t, rfl⟩ | ⟨k, t, n, rfl⟩ | ⟨k, t, n, rfl⟩ | ⟨k, t, rfl⟩ | ⟨k, t, rfl⟩ :=
      Machine.Instr.by_operation i <;> simp
  · obtain ⟨op, kind, tag, n⟩ := c
    rintro ⟨hkind, hcount⟩
    cases op with
    | readv =>
      obtain ⟨j, rfl⟩ := hkind (.inl rfl)
      exact ⟨variableRead j tag n, variableRead_command j tag n⟩
    | writev =>
      obtain ⟨j, rfl⟩ := hkind (.inr rfl)
      exact ⟨variableWrite j tag n, variableWrite_command j tag n⟩
    | read | write | readInto | writeInto =>
      obtain rfl : n = 0 := hcount (by simp)
      exact ⟨_, (Command.instr_eq_ok_iff _ _).mp rfl⟩

/-! The fields of a word as digits of its value (R111) -/

theorem fieldOp_eq (w : Word) : fieldOp w = w.toNat % 2 ^ 4 := by simp [fieldOp]

theorem fieldKind_eq (w : Word) : fieldKind w = w.toNat / 2 ^ 4 % 2 ^ 4 := by simp [fieldKind, Nat.shiftRight_eq_div_pow]

theorem fieldEnd_eq (w : Word) : fieldEnd w = w.toNat / 2 ^ 8 % 2 ^ 2 := by simp [fieldEnd, Nat.shiftRight_eq_div_pow]

theorem fieldRes0_eq (w : Word) : fieldRes0 w = w.toNat / 2 ^ 10 % 2 ^ 6 := by simp [fieldRes0, Nat.shiftRight_eq_div_pow]

theorem fieldN_eq (w : Word) : fieldN w = w.toNat / 2 ^ 16 % 2 ^ 5 := by simp [fieldN, Nat.shiftRight_eq_div_pow]

/-- `RES1` is the topmost field, so nothing is left above it. -/
theorem fieldRes1_eq (w : Word) : fieldRes1 w = w.toNat / 2 ^ 21 := by
  have := w.isLt
  simp only [fieldRes1, BitVec.extractLsb'_toNat, Nat.shiftRight_eq_div_pow]
  omega

/-! The word of a command (R111) -/

/-- A field put above the bits in use is added to them. -/
theorem or_shiftLeft_toNat {x : Word} {k a : Nat} (hx : x.toNat < 2 ^ k) (ha : 2 ^ k * a < 2 ^ 32) :
    (x ||| BitVec.ofNat 32 a <<< k).toNat = x.toNat + 2 ^ k * a := by
  have hshift : (BitVec.ofNat 32 a <<< k).toNat = 2 ^ k * a := by
    rw [BitVec.toNat_shiftLeft, BitVec.toNat_ofNat, Nat.shiftLeft_eq, Nat.mod_mul_mod, mul_comm, Nat.mod_eq_of_lt ha]
  rw [BitVec.toNat_or, hshift, Nat.or_comm, ← Nat.two_pow_add_eq_or_of_lt hx, add_comm]

/-- No two fields of the format overlap. -/
theorem encode_toNat {i : Instr} (h : i.command.n < 32) :
    (encode i).toNat =
      i.command.op.code + 2 ^ 4 * i.command.kind.code + 2 ^ 8 * i.command.tag.code + 2 ^ 16 * i.command.n := by
  have ho := i.command.op.code_lt
  have hk := i.command.kind.code_lt
  have ht := i.command.tag.code_lt
  have hop : (BitVec.ofNat 32 i.command.op.code).toNat = i.command.op.code := Nat.mod_eq_of_lt (by omega)
  have hkind := or_shiftLeft_toNat (x := BitVec.ofNat 32 i.command.op.code) (k := 4) (a := i.command.kind.code)
    (by omega) (by omega)
  have htag := or_shiftLeft_toNat (k := 8) (a := i.command.tag.code) (by rw [hkind]; omega) (by omega)
  have hn := or_shiftLeft_toNat (k := 16) (a := i.command.n) (by rw [htag]; omega) (by omega)
  rw [encode, hn, htag, hkind, hop]

/-- The decoder answers the command whose fields it reads, when the reserved bits are 0. -/
theorem decode_eq_ok_iff_fields (w : Word) (i : Instr) :
    decode w = .ok i ↔ fieldRes0 w = 0 ∧ fieldRes1 w = 0 ∧ i.command.op.code = fieldOp w ∧
      i.command.kind.code = fieldKind w ∧ i.command.tag.code = fieldEnd w ∧ i.command.n = fieldN w := by
  rw [← opOf_eq_some_iff, ← kindOf_eq_some_iff, ← tagOf_eq_some_iff]
  constructor
  · intro h
    unfold decode at h
    split at h
    · cases h
    next hres =>
    split at h
    · cases h
    next op hop =>
    split at h
    · cases h
    next tag htag =>
    split at h
    · cases h
    next kind hkind =>
    rw [Command.instr_eq_ok_iff] at h
    rw [h]
    obtain ⟨hres0, hres1⟩ : fieldRes0 w = 0 ∧ fieldRes1 w = 0 := by simpa using hres
    exact ⟨hres0, hres1, hop, hkind, htag, rfl⟩
  · rintro ⟨hres0, hres1, hop, hkind, htag, hn⟩
    simpa [decode, hres0, hres1, hop, htag, hkind, ← hn] using instr_command i

/-- The words that decode are the words of the well-formed commands. -/
theorem decode_eq_ok_iff_encode (w : Word) (i : Instr) : decode w = .ok i ↔ i.command.n < 32 ∧ encode i = w := by
  have ho := i.command.op.code_lt
  have hk := i.command.kind.code_lt
  have ht := i.command.tag.code_lt
  rw [decode_eq_ok_iff_fields, fieldRes0_eq, fieldRes1_eq, fieldOp_eq, fieldKind_eq, fieldEnd_eq, fieldN_eq]
  constructor
  · rintro ⟨hres0, hres1, hop, hkind, htag, hcount⟩
    have hn : i.command.n < 32 := by omega
    refine ⟨hn, BitVec.eq_of_toNat_eq ?_⟩
    rw [encode_toNat hn]
    omega
  · rintro ⟨hn, rfl⟩
    rw [encode_toNat hn]
    omega

end Sys2Proof
end

