-- ==== Sys2Proof/Proofs/LegalWords.lean ====
section
/-! How many words decode to the commands of a finite set, and the two sets that R118 counts. -/

namespace Sys2Proof

/-- The ten kinds. -/
def Kind.all : Finset Kind := {.u16, .i16, .u32, .i32, .u64, .i64, .u128, .i128, .f32, .f64}

/-- The three tags. -/
def Tag.all : Finset Tag := {.be, .le, .ne}

/-- The four types of the variable-width commands. -/
def WideKind.all : Finset WideKind := {.u64, .i64, .u128, .i128}

@[simp] theorem Kind.mem_all (k : Kind) : k ∈ Kind.all := by cases k <;> decide

@[simp] theorem Tag.mem_all (t : Tag) : t ∈ Tag.all := by cases t <;> decide

@[simp] theorem WideKind.mem_all (k : WideKind) : k ∈ WideKind.all := by cases k <;> decide

/-- The tuples with an operation, a kind and a count from the three sets, and any tag. -/
def Command.grid (ops : Finset Op) (kinds : Finset Kind) (counts : Finset Nat) : Finset Command :=
  (ops ×ˢ kinds ×ˢ Tag.all ×ˢ counts).image fun f => ⟨f.1, f.2.1, f.2.2.1, f.2.2.2⟩

section
variable (ops : Finset Op) (kinds : Finset Kind) (counts : Finset Nat)

@[simp] theorem Command.mem_grid (c : Command) :
    c ∈ Command.grid ops kinds counts ↔ c.op ∈ ops ∧ c.kind ∈ kinds ∧ c.n ∈ counts := by
  obtain ⟨op, kind, tag, n⟩ := c
  simp [Command.grid]

@[simp] theorem Command.card_grid :
    (Command.grid ops kinds counts).card = ops.card * (kinds.card * (3 * counts.card)) := by
  rw [Command.grid, Finset.card_image_of_injective _ fun f g h => by simpa [Prod.ext_iff] using h]
  simp only [Finset.card_product]
  rfl

end

theorem Command.disjoint_grid {ops ops' : Finset Op} {kinds kinds' : Finset Kind} (counts counts' : Finset Nat)
    (h : Disjoint ops ops' ∨ Disjoint kinds kinds') :
    Disjoint (Command.grid ops kinds counts) (Command.grid ops' kinds' counts') := by
  simp only [Finset.disjoint_left] at h ⊢
  intro c hc hc'
  obtain ⟨hop, hkind, -⟩ := (Command.mem_grid ops kinds counts c).mp hc
  obtain ⟨hop', hkind', -⟩ := (Command.mem_grid ops' kinds' counts' c).mp hc'
  obtain hops | hkinds := h
  · exact hops hop hop'
  · exact hkinds hkind hkind'

/-- The words that decode to a command of a finite set are as many as the commands, when each is well formed. -/
theorem ncard_words_of_commands {cs : Finset Command} (hcs : ∀ c ∈ cs, c.n < 32 ∧ ∃ i : Instr, i.command = c) :
    Set.ncard { w : Word | ∃ i : Instr, i.command ∈ cs ∧ decode w = .ok i } = cs.card := by
  have hwords : { w : Word | ∃ i : Instr, i.command ∈ cs ∧ decode w = .ok i } = encode '' { i | i.command ∈ cs } := by
    ext w
    refine exists_congr fun i => and_congr_right fun hi => ?_
    rw [decode_eq_ok_iff_encode]
    exact and_iff_right (hcs _ hi).1
  have hencode : Set.InjOn encode { i | i.command ∈ cs } := fun i hi j hj h => by
    have hdecode : decode (encode j) = .ok j := (decode_eq_ok_iff_encode _ j).mpr ⟨(hcs _ hj).1, rfl⟩
    rw [(decode_eq_ok_iff_encode _ i).mpr ⟨(hcs _ hi).1, h⟩] at hdecode
    exact Except.ok.inj hdecode
  have hcommands : Instr.command '' { i | i.command ∈ cs } = cs := by
    ext c
    refine ⟨?_, fun hc => ?_⟩
    · rintro ⟨i, hi, rfl⟩
      exact hi
    · obtain ⟨i, rfl⟩ := (hcs c hc).2
      exact ⟨i, hc, rfl⟩
  rw [hwords, hencode.ncard_image, ← Set.ncard_image_of_injective _ Instr.command_injective, hcommands,
    Set.ncard_coe_finset]

/-! The two sets of R118 -/

/-- The legal fields: any kind without a count, and the four types with a count of 0 to 31. -/
def legalCommands : Finset Command :=
  Command.grid {.read, .write, .readInto, .writeInto} Kind.all {0} ∪
    Command.grid {.readv, .writev} (WideKind.all.image WideKind.kind) (Finset.range 32)

theorem mem_legalCommands (c : Command) : c ∈ legalCommands ↔ c.n < 32 ∧ ∃ i : Instr, i.command = c := by
  rw [Command.exists_instr_iff, Op.code_mem_variable_iff, Kind.code_mem_wide_iff]
  obtain ⟨op, kind, tag, n⟩ := c
  cases op with
  | readv | writev => simp [legalCommands, and_comm]
  | read | write | readInto | writeInto => simpa [legalCommands] using fun hn : n = 0 => hn ▸ Nat.zero_lt_succ 31

theorem card_legalCommands : legalCommands.card = 888 := by
  rw [legalCommands, Finset.card_union_of_disjoint (Command.disjoint_grid _ _ (.inl (by decide))), Command.card_grid,
    Command.card_grid]
  rfl

/-- The counts of the field `N` that a type does not support. -/
def WideKind.unsupportedCounts (k : WideKind) : Finset Nat := {n ∈ Finset.range 32 | k.supports n = false}

theorem WideKind.mem_unsupportedCounts (k : WideKind) (n : Nat) :
    n ∈ k.unsupportedCounts ↔ n < 32 ∧ k.supports n = false := by
  simp [WideKind.unsupportedCounts]

/-- The fields of the variable-width commands with an unsupported count. -/
def unsupportedCommands : Finset Command :=
  WideKind.all.biUnion fun k => Command.grid {.readv, .writev} {k.kind} k.unsupportedCounts

theorem command_mem_unsupportedCommands (i : Instr) :
    i.command ∈ unsupportedCommands ↔ ∃ (k : WideKind) (t : Tag) (n : Nat), k.supports n = false ∧ n < 32 ∧
      (i = variableRead k t n ∨ i = variableWrite k t n) := by
  simp only [unsupportedCommands, Finset.mem_biUnion, WideKind.mem_all, true_and, Command.mem_grid, Finset.mem_insert,
    Finset.mem_singleton, WideKind.mem_unsupportedCounts]
  constructor
  · generalize hc : i.command = c
    obtain ⟨op, kind, tag, n⟩ := c
    rintro ⟨k, rfl | rfl, rfl, hn, hk⟩
    · exact ⟨k, tag, n, hk, hn, .inl (Instr.command_injective (by rw [hc, variableRead_command]))⟩
    · exact ⟨k, tag, n, hk, hn, .inr (Instr.command_injective (by rw [hc, variableWrite_command]))⟩
  · rintro ⟨k, t, n, hk, hn, rfl | rfl⟩
    · exact ⟨k, by simp [hk, hn]⟩
    · exact ⟨k, by simp [hk, hn]⟩

theorem unsupportedCommands_subset : unsupportedCommands ⊆ legalCommands := by
  refine Finset.biUnion_subset.mpr fun k _ c hc => Finset.mem_union_right _ ?_
  obtain ⟨hop, hkind, hn⟩ := (Command.mem_grid _ _ _ c).mp hc
  rw [Finset.mem_singleton] at hkind
  rw [WideKind.mem_unsupportedCounts] at hn
  rw [Command.mem_grid, hkind, Finset.mem_range]
  exact ⟨hop, Finset.mem_image_of_mem _ k.mem_all, hn.1⟩

theorem card_unsupportedCommands : unsupportedCommands.card = 480 := by
  rw [unsupportedCommands, Finset.card_biUnion]
  · simp only [Command.card_grid]
    rfl
  · intro j _ k _ hjk
    have hkinds : j.kind ≠ k.kind := fun h => hjk (WideKind.kind_injective h)
    exact Command.disjoint_grid _ _ (.inr (by simpa using hkinds))

/-- The legal words are those that decode to a command with legal fields. -/
theorem legalWords_eq :
    { w : Word | ∃ i, decode w = .ok i } = { w | ∃ i : Instr, i.command ∈ legalCommands ∧ decode w = .ok i } := by
  ext w
  refine exists_congr fun i => (and_iff_right_of_imp fun h => ?_).symm
  exact (mem_legalCommands i.command).mpr ⟨((decode_eq_ok_iff_encode w i).mp h).1, i, rfl⟩

/-- The words with an unsupported count; decoding bounds the count, which the left side leaves free. -/
theorem unsupportedWords_eq :
    { w : Word | ∃ (k : WideKind) (t : Tag) (n : Nat), k.supports n = false ∧
      (decode w = .ok (variableRead k t n) ∨ decode w = .ok (variableWrite k t n)) } =
    { w | ∃ i : Instr, i.command ∈ unsupportedCommands ∧ decode w = .ok i } := by
  ext w
  simp only [Set.mem_ofPred_eq, command_mem_unsupportedCommands]
  constructor
  · rintro ⟨k, t, n, hk, h | h⟩
    · have hn : n < 32 := by simpa using ((decode_eq_ok_iff_encode w _).mp h).1
      exact ⟨_, ⟨k, t, n, hk, hn, .inl rfl⟩, h⟩
    · have hn : n < 32 := by simpa using ((decode_eq_ok_iff_encode w _).mp h).1
      exact ⟨_, ⟨k, t, n, hk, hn, .inr rfl⟩, h⟩
  · rintro ⟨i, ⟨k, t, n, hk, -, rfl | rfl⟩, h⟩
    · exact ⟨k, t, n, hk, .inl h⟩
    · exact ⟨k, t, n, hk, .inr h⟩

end Sys2Proof
end

