-- ==== Sys2Proof/Proofs/Encoding.lean ====
section
/-! The obligations of spec/30_encoding.md. -/

namespace Sys2Proof

/-- Settles O2: the word of a well-formed command decodes to it. -/
theorem decodeOfEncode : Obligations.DecodeOfEncode := by
  unfold Obligations.DecodeOfEncode
  intro i hi
  exact (decode_eq_ok_iff_encode (encode i) i).mpr ⟨i.wellFormed_iff.mp hi, rfl⟩

/-- Settles O3: the same equivalence, from the word to the command. -/
theorem encodeOfDecode : Obligations.EncodeOfDecode := by
  unfold Obligations.EncodeOfDecode
  intro w i h
  obtain ⟨hn, henc⟩ := (decode_eq_ok_iff_encode w i).mp h
  exact ⟨i.wellFormed_iff.mpr hn, henc⟩

/-- Settles O4: a word is legal when its reserved bits are 0, each field is a code, and the fields together name a command. -/
theorem decodeOnAllWords : Obligations.DecodeOnAllWords := by
  unfold Obligations.DecodeOnAllWords
  intro w op kind endTag res0 n res1
  have hdecode (i : Instr) : decode w = .ok i ↔ res0 = 0 ∧ res1 = 0 ∧ i.command.op.code = op ∧
      i.command.kind.code = kind ∧ i.command.tag.code = endTag ∧ i.command.n = n := by
    rw [decode_eq_ok_iff_fields, fieldRes0_eq, fieldRes1_eq, fieldOp_eq, fieldKind_eq, fieldEnd_eq, fieldN_eq]
  refine ⟨⟨?_, ?_⟩, fun i h => ((hdecode i).mp h).2.2⟩
  · rintro ⟨i, h⟩
    obtain ⟨hres0, hres1, hop, hkind, htag, hn⟩ := (hdecode i).mp h
    obtain ⟨hlow, hhigh⟩ := (Op.exists_code_iff op).mp ⟨_, hop⟩
    have hend := (Tag.exists_code_iff endTag).mp ⟨_, htag⟩
    obtain ⟨hwide, hcount⟩ := i.command.exists_instr_iff.mp ⟨i, rfl⟩
    rw [hop, hkind] at hwide
    rw [hop, hn] at hcount
    exact ⟨hres0, hres1, hlow, hhigh, hend.ne, (Kind.exists_code_iff kind).mp ⟨_, hkind⟩, hwide, hcount⟩
  · rintro ⟨hres0, hres1, hlow, hhigh, hend, hkind, hwide, hcount⟩
    obtain ⟨o, ho⟩ := (Op.exists_code_iff op).mpr ⟨hlow, hhigh⟩
    obtain ⟨k, hk⟩ := (Kind.exists_code_iff kind).mpr hkind
    obtain ⟨t, ht⟩ := (Tag.exists_code_iff endTag).mpr (by omega)
    rw [← ho, ← hk] at hwide
    rw [← ho] at hcount
    obtain ⟨i, hi⟩ := (Command.exists_instr_iff ⟨o, k, t, n⟩).mpr ⟨hwide, hcount⟩
    exact ⟨i, (hdecode i).mpr (by rw [hi]; exact ⟨hres0, hres1, ho, hk, ht, rfl⟩)⟩

/-- Settles O5: each set is the words of a finite set of commands, which are counted as products. -/
theorem countsOfLegalWords : Obligations.CountsOfLegalWords := by
  unfold Obligations.CountsOfLegalWords
  rw [legalWords_eq, unsupportedWords_eq, ncard_words_of_commands fun c hc => (mem_legalCommands c).mp hc,
    ncard_words_of_commands fun c hc => (mem_legalCommands c).mp (unsupportedCommands_subset hc)]
  exact ⟨card_legalCommands, card_unsupportedCommands⟩

end Sys2Proof
end

section
/-! The obligations of spec/40_command_execution.md: what a register access and a step that runs a command do. -/

namespace Sys2Proof.Machine

/-! The register window (R31) -/

theorem regAt_eq_some_iff (offset : Nat) (r : Reg) : regAt offset = some r ↔ r.offset = offset := by
  constructor
  · intro h
    unfold regAt at h
    split at h <;> cases h <;> rfl
  · rintro rfl
    cases r <;> rfl

/-- An offset with no register is none of the ten of the window. -/
theorem offset_ne_of_regAt_eq_none {offset : Nat} (h : regAt offset = none) :
    offset ≠ 0x00 ∧ offset ≠ 0x04 ∧ offset ≠ 0x08 ∧ offset ≠ 0x0C ∧ offset ≠ 0x10 ∧ offset ≠ 0x14 ∧ offset ≠ 0x18 ∧
      offset ≠ 0x1C ∧ offset ≠ 0x20 ∧ offset ≠ 0x24 := by
  and_intros <;> rintro rfl <;> cases h

/-- `FAULT` is bit 0 of `STATUS` and `ERR` starts at bit 4 (R35), as a sum. -/
theorem State.statusWord_eq_sum (s : State) :
    s.statusWord = BitVec.ofNat 32 ((if s.status.fault then 1 else 0) + 16 * s.status.err.toNat) := by
  have hword : ∀ (fault : Bool) (err : BitVec 4),
      Status.word ⟨fault, err⟩ = BitVec.ofNat 32 ((if fault then 1 else 0) + 16 * err.toNat) := by decide
  exact hword s.status.fault s.status.err

/-! What an access and a command word answer in one known case -/

theorem execute_of_decode {w : Word} {i : Instr} (h : decode w = .ok i) (s : State) : execute w s = exec i s := by
  obtain ⟨e, he, -⟩ | ⟨j, hj, hexec⟩ := execute_cases w s
  · cases h.symm.trans he
  · obtain rfl := Except.ok.inj (h.symm.trans hj)
    exact hexec

theorem portTakes_eq_false_iff (size : AccessSize) (offset : Nat) :
    portTakes size offset = false ↔ size ≠ .word ∨ offset % 4 ≠ 0 := by
  rw [← Bool.not_eq_true, portTakes_iff, not_and_or]

theorem serve_regRead_of_not_taken {size : AccessSize} {offset : Nat} (h : portTakes size offset = false) (s : State) :
    serve (.regRead size offset) s = .refused .registerAccess :=
  if_neg (ne_true_of_eq_false h)

theorem serve_regWrite_of_not_taken {size : AccessSize} {offset : Nat} (h : portTakes size offset = false) (d : Word)
    (s : State) : serve (.regWrite size offset d) s = .refused .registerAccess :=
  if_neg (ne_true_of_eq_false h)

/-! The obligations -/

/-- Settles O42: the register at the offset is one of the ten, or there is none. -/
theorem registerReadReturns : Obligations.RegisterReadReturns := by
  unfold Obligations.RegisterReadReturns
  intro s offset _ value
  have hvalue : hostReadValue offset s = value := by
    unfold hostReadValue
    cases hr : regAt offset with
    | none => simp [value, offset_ne_of_regAt_eq_none hr]
    | some r =>
      obtain rfl := (regAt_eq_some_iff offset r).mp hr
      cases r with
      | status => exact s.statusWord_eq_sum
      | _ => rfl
  rw [hostRead, hvalue]

/-- Settles O43: along the four things a host write can do. -/
theorem registerWriteStores : Obligations.RegisterWriteStores := by
  unfold Obligations.RegisterWriteStores
  intro s offset d _
  obtain ⟨hf, hw⟩ | ⟨hf, hr, hw⟩ | ⟨hf, hr, hw⟩ | ⟨hf, r, hcmd, hr, hw⟩ := hostWrite_cases offset d s
  · rw [hw, if_pos hf]
  · simp [hw, hf, offset_ne_of_regAt_eq_none hr]
  · obtain rfl := (regAt_eq_some_iff offset .cmd).mp hr
    rw [hw, if_neg (ne_true_of_eq_false hf)]
    rfl
  · obtain rfl := (regAt_eq_some_iff offset r).mp hr
    rw [hw, if_neg (ne_true_of_eq_false hf)]
    cases r with
    | cmd => exact absurd rfl hcmd
    | _ => rfl

/-- Settles O40: the step serves the write, the write to `CMD` executes the word, and the word is that of the command. -/
theorem stepRunsDecodedCommand : Obligations.StepRunsDecodedCommand := by
  unfold Obligations.StepRunsDecodedCommand
  intro s w rest i hp hf hdecode
  let s₀ := { s with pending := rest }
  calc step s = serve (.regWrite .word 0x00 w) s₀ := step_serves hp
    _ = hostWrite 0x00 w s₀ := serve_regWrite rfl w s₀
    _ = execute w { s₀ with cmd := w } := by rw [registerWriteStores s₀ 0x00 w rfl, if_neg (ne_true_of_eq_false hf), if_pos rfl]
    _ = exec i { s₀ with cmd := w } := execute_of_decode hdecode _

/-- Settles O44: the port does not take the access, so serving it is a refusal. -/
theorem narrowAccessRefused : Obligations.NarrowAccessRefused := by
  unfold Obligations.NarrowAccessRefused
  intro s size offset d rest hbad hp
  have hport := (portTakes_eq_false_iff size offset).mpr hbad
  obtain hp | hp := hp
  · rw [step_serves hp, serve_regRead_of_not_taken hport]
  · rw [step_serves hp, serve_regWrite_of_not_taken hport]

end Sys2Proof.Machine
end

