-- ==== Sys2Proof/Proofs/ScalarAccess.lean ====
section
/-! What the fixed-width commands, and a read of any width, answer in each case; the value a read leaves in `V`; and the bytes
that a write stores. -/

namespace Sys2Proof

theorem Kind.bits_le (k : Kind) : k.bits ≤ 128 := by cases k <;> decide

end Sys2Proof

namespace Sys2Proof.Machine

/-! Extension (spec/00_scope.md section 8): a pattern of `k` bits is a bit vector, sign-extended or zero-extended -/

section
variable {p k : Nat}

theorem sext128_eq_signExtend (hp : p < 2 ^ k) (hk : k ≤ 128) : sext128 p k = (BitVec.ofNat k p).signExtend 128 := by
  have hpow : 2 ^ k ≤ 2 ^ 128 := Nat.pow_le_pow_right (by decide) hk
  have hpattern : (BitVec.ofNat k p).toNat = p := by rw [BitVec.toNat_ofNat, Nat.mod_eq_of_lt hp]
  apply BitVec.eq_of_toNat_eq
  rw [sext128, BitVec.toNat_ofNat, BitVec.toNat_signExtend, BitVec.toNat_setWidth_of_le hk, BitVec.msb_eq_decide, hpattern]
  by_cases hneg : p < 2 ^ (k - 1)
  · rw [if_pos hneg, if_neg (by simpa using hneg), Nat.mod_eq_of_lt (by omega), Nat.add_zero]
  · rw [if_neg hneg, if_pos (by simpa using hneg), Nat.mod_eq_of_lt (by omega), Nat.add_sub_assoc hpow]

/-- `ext_K`, as the extension of a bit vector of `k` bits. -/
theorem extend_eq (signed : Bool) (hp : p < 2 ^ k) (hk : k ≤ 128) :
    extend signed p k = if signed then (BitVec.ofNat k p).signExtend 128 else (BitVec.ofNat k p).setWidth 128 := by
  cases signed with
  | true => exact sext128_eq_signExtend hp hk
  | false =>
    apply BitVec.eq_of_toNat_eq
    simp [extend, zext128, Nat.mod_eq_of_lt hp]

/-- `sval_T` is the two's-complement value of the bit vector. -/
theorem toInt_ofNat_eq_sval (hp : p < 2 ^ k) : (BitVec.ofNat k p).toInt = sval k p := by
  rw [BitVec.toInt_eq_msb_cond, BitVec.msb_eq_decide, BitVec.toNat_ofNat, Nat.mod_eq_of_lt hp, sval]
  by_cases hneg : p < 2 ^ (k - 1)
  · rw [if_pos hneg, if_neg (by simpa using hneg)]
  · rw [if_neg hneg, if_pos (by simpa using hneg), Nat.cast_pow, Nat.cast_ofNat]

theorem toInt_extend_signed (hp : p < 2 ^ k) (hk : k ≤ 128) : (extend true p k).toInt = sval k p := by
  rw [extend_eq true hp hk, if_pos rfl, BitVec.toInt_signExtend_of_le hk, toInt_ofNat_eq_sval hp]

theorem toNat_extend_unsigned (hp : p < 2 ^ k) (hk : k ≤ 128) : (extend false p k).toNat = p := by
  rw [extend_eq false hp hk, if_neg Bool.false_ne_true, BitVec.toNat_setWidth_of_le hk, BitVec.toNat_ofNat,
    Nat.mod_eq_of_lt hp]

end

/-! Bytes in memory -/

/-- Assembling the bytes of a region gives the sum of R76 and R77 over it. -/
theorem asm_readBytes (o : Order) (m : Memory) (a n : Nat) : asm o (m.readBytes a n) = patternAt o m a n := by
  rw [asm_eq_sum, Memory.readBytes_length, patternAt]
  refine Finset.sum_congr rfl fun i hi => ?_
  rw [List.getD_eq_getElem?_getD, Memory.readBytes_getElem? m a n i (Finset.mem_range.mp hi), Option.getD_some]

theorem patternAt_lt (o : Order) (m : Memory) (a n : Nat) : patternAt o m a n < 2 ^ (8 * n) := by
  simpa [asm_readBytes] using asm_lt o (m.readBytes a n)

/-- A pattern depends on no byte outside its region. -/
theorem patternAt_congr (o : Order) {m m' : Memory} {a n : Nat} (h : ∀ i < n, m.read (a + i) = m'.read (a + i)) :
    patternAt o m a n = patternAt o m' a n := by
  rw [← asm_readBytes, ← asm_readBytes, Memory.readBytes_congr h]

/-- A region reads back the bytes written to it. -/
theorem Memory.readBytes_writeBytes (m : Memory) (a : Nat) (bytes : List Byte) :
    (m.writeBytes a bytes).readBytes a bytes.length = bytes := by
  refine List.ext_getElem? fun i => ?_
  obtain hi | hi := Nat.lt_or_ge i bytes.length
  · rw [Memory.readBytes_getElem? _ _ _ _ hi, Memory.read_writeBytes_inside hi, List.getElem?_eq_getElem hi]
  · rw [List.getElem?_eq_none (by simpa using hi), List.getElem?_eq_none hi]

/-- Each byte of a stored pattern, by the formula of R78. -/
theorem Memory.read_writeBytes_dis (m : Memory) (a : Nat) (o : Order) {n i : Nat} (p : Nat) (h : i < n) :
    (m.writeBytes a (dis o n p)).read (a + i) = encodedByte o n p i := by
  have hi : i < (dis o n p).length := by rwa [dis_length]
  rw [Memory.read_writeBytes_inside hi]
  exact Option.some.inj ((List.getElem?_eq_getElem hi).symm.trans (dis_getElem? o p h))

/-- A pattern assembled again in the order it was stored in. -/
theorem patternAt_writeBytes_dis (m : Memory) (a : Nat) (o : Order) (n p : Nat) :
    patternAt o (m.writeBytes a (dis o n p)) a n = p % 2 ^ (8 * n) := by
  have hbytes := Memory.readBytes_writeBytes m a (dis o n p)
  rw [dis_length] at hbytes
  rw [← asm_readBytes, hbytes, asm_dis]

/-- The big-endian bytes are the little-endian ones reversed. -/
theorem encodedByte_big (n p i : Nat) : encodedByte .big n p i = encodedByte .little n p (n - 1 - i) := rfl

/-! The operand of a write (spec/10_state.md R32) -/

theorem State.operand_lt (s : State) (t : Nat) : s.operand t < 2 ^ t := Nat.mod_lt _ (Nat.two_pow_pos t)

/-- `V[T-1:0]` as a bit vector. -/
theorem State.ofNat_operand (s : State) (t : Nat) : BitVec.ofNat t (s.operand t) = s.v.setWidth t := by
  apply BitVec.eq_of_toNat_eq
  rw [BitVec.toNat_ofNat, Nat.mod_eq_of_lt (s.operand_lt t), BitVec.toNat_setWidth, State.operand]

/-! The answers of the scalar commands -/

theorem viewInRange_eq_false_iff (s : State) : s.viewInRange = false ↔ memSize < s.bufAddr.toNat + s.bufLen.toNat := by
  rw [← Bool.not_eq_true, viewInRange_iff, Nat.not_le]

section
variable {k : Kind} {j : WideKind} {t : Tag} {n : Nat} {s : State}

theorem readFixed_range (hv : s.viewInRange = false) : readFixed k t s = .next (s.raise .range) := if_pos hv

theorem writeFixed_range (hv : s.viewInRange = false) : writeFixed k t s = .next (s.raise .range) := if_pos hv

/-- A read with every check passed sets `V` to the extension of the pattern it assembles. -/
theorem readFixed_ok (hv : s.viewInRange = true) (hl : k.width ≤ s.bufLen.toNat) :
    readFixed k t s = .next (s.setV (extend k.signed (patternAt (resolve t) s.mem s.bufAddr.toNat k.width) k.bits)) := by
  simp [readFixed, hv, Nat.not_lt.mpr hl, State.viewBytes, asm_readBytes]

theorem writeFixed_ok (hv : s.viewInRange = true) (hl : k.width ≤ s.bufLen.toNat) :
    writeFixed k t s = .next (s.store s.bufAddr.toNat (dis (resolve t) k.width (s.operand k.bits))) := by
  simp [writeFixed, hv, Nat.not_lt.mpr hl]

theorem readVariable_ok (hn : j.supports n = true) (hv : s.viewInRange = true) (hl : n ≤ s.bufLen.toNat) :
    readVariable j t n s =
      .next (s.setV (extend j.kind.signed (patternAt (resolve t) s.mem s.bufAddr.toNat n) (8 * n))) := by
  simp [readVariable, hn, hv, Nat.not_lt.mpr hl, State.viewBytes, asm_readBytes]

end

/-! A write and a bulk command use a kind only through its width -/

section
variable {k k' : Kind} (h : k.width = k'.width) (t : Tag) (s : State)
include h

theorem writeFixed_width_congr : writeFixed k t s = writeFixed k' t s := by simp only [writeFixed, Kind.bits, h]

theorem bulkFault_width_congr : bulkFault k s = bulkFault k' s := by
  have hbytes : s.sliceBytes k = s.sliceBytes k' := by rw [State.sliceBytes, State.sliceBytes, h]
  have hrange : s.sliceInRange k = s.sliceInRange k' := by rw [State.sliceInRange, State.sliceInRange, hbytes]
  rw [bulkFault, bulkFault, hbytes, hrange]

theorem readBulk_width_congr : readBulk k t s = readBulk k' t s := by simp only [readBulk, bulkFault_width_congr h, h]

theorem writeBulk_width_congr : writeBulk k t s = writeBulk k' t s := by simp only [writeBulk, bulkFault_width_congr h, h]

end

end Sys2Proof.Machine
end

