-- ==== Sys2Proof/Proofs/FixedWidth.lean ====
section
/-! The obligations of spec/41_fixed_width.md. -/

namespace Sys2Proof.Machine

/-- Settles O10: the two faults and the answer of a read with its checks passed, whose pattern has `T` bits. -/
theorem fixedReadResult : Obligations.FixedReadResult := by
  unfold Obligations.FixedReadResult
  intro k t s
  rw [exec_fixedRead]
  refine ⟨fun hv => readFixed_range ((viewInRange_eq_false_iff s).mpr hv),
    fun hv hl => readFixed_short ((viewInRange_iff s).mpr hv) hl, fun hv hl => ?_⟩
  refine ⟨_, readFixed_ok ((viewInRange_iff s).mpr hv) hl, rfl, ?_⟩
  have hp : patternAt (resolve t) s.mem s.bufAddr.toNat k.width < 2 ^ k.bits := patternAt_lt _ _ _ _
  rw [State.v_setV]
  refine ⟨fun hsigned => ?_, fun hunsigned => ?_⟩
  · rw [hsigned]
    exact toInt_extend_signed hp k.bits_le
  · rw [hunsigned]
    exact toNat_extend_unsigned hp k.bits_le

/-- Settles O11: the two faults and the answer of a write with its checks passed, byte by byte. -/
theorem fixedWriteResult : Obligations.FixedWriteResult := by
  unfold Obligations.FixedWriteResult
  intro k t s
  rw [exec_fixedWrite]
  refine ⟨fun hv => writeFixed_range ((viewInRange_eq_false_iff s).mpr hv),
    fun hv hl => writeFixed_short ((viewInRange_iff s).mpr hv) hl, fun hv hl => ?_⟩
  refine ⟨_, writeFixed_ok ((viewInRange_iff s).mpr hv) hl, rfl, fun i hi => ?_, fun a ha => ?_⟩
  · exact Memory.read_writeBytes_dis s.mem s.bufAddr.toNat (resolve t) _ hi
  · exact Memory.read_writeBytes_outside (by rwa [dis_length])

/-- Settles O12: the read assembles the pattern that the write stored, `V[T-1:0]`, and extends it. -/
theorem fixedWriteThenRead : Obligations.FixedWriteThenRead := by
  unfold Obligations.FixedWriteThenRead
  intro k t s hv hl
  have hview : s.viewInRange = true := (viewInRange_iff s).mpr hv
  let s₁ := s.store s.bufAddr.toNat (dis (resolve t) k.width (s.operand k.bits))
  have hwrite : exec (fixedWrite k t) s = .next s₁ := (exec_fixedWrite k t s).trans (writeFixed_ok hview hl)
  have hread := (exec_fixedRead k t s₁).trans (readFixed_ok (t := t) (s := s₁) hview hl)
  refine ⟨s₁, _, hwrite, hread, ?_⟩
  have hback : patternAt (resolve t) s₁.mem s₁.bufAddr.toNat k.width = s.operand k.bits :=
    (patternAt_writeBytes_dis _ _ _ _ _).trans (Nat.mod_eq_of_lt (s.operand_lt k.bits))
  rw [State.v_setV, hback, extend_eq _ (s.operand_lt k.bits) k.bits_le, s.ofNat_operand]

/-- Settles O13, by the byte formulas of the two orders. -/
theorem fixedWriteSymmetry : Obligations.FixedWriteSymmetry := by
  unfold Obligations.FixedWriteSymmetry
  intro k s hv hlen
  obtain ⟨-, -, hbe⟩ := fixedWriteResult k .be s
  obtain ⟨-, -, hle⟩ := fixedWriteResult k .le s
  obtain ⟨b, hb, -, hbbytes, -⟩ := hbe hv hlen
  obtain ⟨l, hl, -, hlbytes, -⟩ := hle hv hlen
  refine ⟨b, l, hb, hl, fun i hi => ?_⟩
  rw [hbbytes i hi, hlbytes (k.width - 1 - i) (by omega)]
  exact encodedByte_big k.width _ i

/-- Settles O15: a read reads memory only through the pattern of its bytes. -/
theorem scalarReadDependsOnItsBytes : Obligations.ScalarReadDependsOnItsBytes := by
  unfold Obligations.ScalarReadDependsOnItsBytes
  intro t s u haddr hlen hv
  have hvs : s.viewInRange = true := (viewInRange_iff s).mpr hv
  have hvu : u.viewInRange = true := by rwa [viewInRange_iff, ← haddr, ← hlen]
  refine ⟨fun k hl hbytes => ?_, fun k n hone hmax hl hbytes => ?_⟩
  · rw [exec_fixedRead, exec_fixedRead]
    refine ⟨_, _, readFixed_ok hvs hl, readFixed_ok hvu (hlen ▸ hl), ?_⟩
    rw [State.v_setV, State.v_setV, ← haddr, patternAt_congr (resolve t) hbytes]
  · rw [exec_variableRead, exec_variableRead]
    have hn := (supports_iff k n).mpr ⟨hone, hmax⟩
    refine ⟨_, _, readVariable_ok hn hvs hl, readVariable_ok hn hvu (hlen ▸ hl), ?_⟩
    rw [State.v_setV, State.v_setV, ← haddr, patternAt_congr (resolve t) hbytes]

/-- Settles O29: none of the three operations looks at more of a kind than its width. -/
theorem kindsOfOneWidthMoveTheSameBytes : Obligations.KindsOfOneWidthMoveTheSameBytes := by
  unfold Obligations.KindsOfOneWidthMoveTheSameBytes
  intro k k' t s hwidth
  rw [exec_fixedWrite, exec_fixedWrite, exec_bulkRead, exec_bulkRead, exec_bulkWrite, exec_bulkWrite]
  exact ⟨writeFixed_width_congr hwidth t s, readBulk_width_congr hwidth t s, writeBulk_width_congr hwidth t s⟩

end Sys2Proof.Machine
end

