-- ==== Sys2Proof/Proofs/VariableAccess.lean ====
section
/-! What the fit check of a variable-width write decides, the bytes a write that passes it stores, and the two counts at which a
command is simpler: the full width and the single byte. -/

namespace Sys2Proof.Machine

/-! A value that fits in `m` bits is the extension of its low `m` bits -/

theorem toInt_setWidth_of_le {w m : Nat} (x : BitVec w) (h : m ≤ w) : (x.setWidth m).toInt = x.toInt.bmod (2 ^ m) := by
  rw [← BitVec.signExtend_eq_setWidth_of_le x h, BitVec.toInt_signExtend_eq_toInt_bmod_of_le x h]

theorem signExtend_setWidth_of_representable {w m : Nat} {x : BitVec w} (hpos : 0 < m) (hm : m ≤ w) (hw : w ≤ 128)
    (hlow : -2 ^ (m - 1) ≤ x.toInt) (hhigh : x.toInt < 2 ^ (m - 1)) :
    (x.setWidth m).signExtend 128 = x.signExtend 128 := by
  have hhalf : (2 : Int) ^ m = 2 * 2 ^ (m - 1) := by rw [← pow_succ', Nat.sub_add_cancel hpos]
  have hbmod : x.toInt.bmod (2 ^ m) = x.toInt := by
    apply Int.bmod_eq_of_le_mul_two <;> push_cast <;> omega
  apply BitVec.eq_of_toInt_eq
  rw [BitVec.toInt_signExtend_of_le (hm.trans hw), BitVec.toInt_signExtend_of_le hw, toInt_setWidth_of_le x hm, hbmod]

theorem setWidth_setWidth_of_representable {w m : Nat} {x : BitVec w} (hx : x.toNat < 2 ^ m) :
    (x.setWidth m).setWidth 128 = x.setWidth 128 := by
  apply BitVec.eq_of_toNat_eq
  rw [BitVec.toNat_setWidth, BitVec.toNat_setWidth, BitVec.toNat_setWidth, Nat.mod_eq_of_lt hx]

/-! The operand of a variable-width write -/

/-- The low bits of the operand are those of `V`. -/
theorem State.operand_mod (s : State) {m t : Nat} (h : m ≤ t) : s.operand t % 2 ^ m = s.operand m :=
  Nat.mod_mod_of_dvd _ (pow_dvd_pow 2 h)

theorem State.toNat_setWidth_v (s : State) (t : Nat) : (s.v.setWidth t).toNat = s.operand t := BitVec.toNat_setWidth t s.v

theorem State.toInt_setWidth_v (s : State) (t : Nat) : (s.v.setWidth t).toInt = sval t (s.operand t) := by
  rw [← s.ofNat_operand, toInt_ofNat_eq_sval (s.operand_lt t)]

section
variable {k : Kind} {n : Nat} {s : State}

/-- The fit check of a signed type (R224), on the value of `V[T-1:0]`. -/
theorem fits_signed_iff (h : k.signed = true) :
    fits k n (s.operand k.bits) = true ↔
      -2 ^ (8 * n - 1) ≤ (s.v.setWidth k.bits).toInt ∧ (s.v.setWidth k.bits).toInt < 2 ^ (8 * n - 1) := by
  rw [State.toInt_setWidth_v, fits, if_pos h, Bool.and_eq_true, decide_eq_true_iff, decide_eq_true_iff]

/-- The fit check of an unsigned type (R224). -/
theorem fits_unsigned_iff (h : k.signed = false) :
    fits k n (s.operand k.bits) = true ↔ (s.v.setWidth k.bits).toNat < 2 ^ (8 * n) := by
  rw [State.toNat_setWidth_v, fits, if_neg (ne_true_of_eq_false h), decide_eq_true_iff]

/-- Extending the low `n` bytes of an operand that fits in them restores the operand. -/
theorem extend_operand_of_fits (hn : 1 ≤ n) (hmax : n ≤ k.width) (hf : fits k n (s.operand k.bits) = true) :
    extend k.signed (s.operand (8 * n)) (8 * n) =
      if k.signed then (s.v.setWidth k.bits).signExtend 128 else (s.v.setWidth k.bits).setWidth 128 := by
  have hbits : 8 * n ≤ k.bits := Nat.mul_le_mul_left 8 hmax
  rw [extend_eq _ (s.operand_lt _) (hbits.trans k.bits_le), s.ofNat_operand, ← BitVec.setWidth_setWidth_of_le s.v hbits]
  cases hsigned : k.signed with
  | true =>
    obtain ⟨hlow, hhigh⟩ := (fits_signed_iff hsigned).mp hf
    exact signExtend_setWidth_of_representable (by omega) hbits k.bits_le hlow hhigh
  | false => exact setWidth_setWidth_of_representable ((fits_unsigned_iff hsigned).mp hf)

/-- Every operand fits in all the bytes of its type. -/
theorem fits_width : fits k k.width (s.operand k.bits) = true := by
  cases hsigned : k.signed with
  | true => exact (fits_signed_iff hsigned).mpr ⟨BitVec.le_toInt _, BitVec.toInt_lt⟩
  | false => exact (fits_unsigned_iff hsigned).mpr (BitVec.isLt _)

end

/-- A write with every check passed stores the low `n` bytes of `V`. -/
theorem writeVariable_ok {j : WideKind} {t : Tag} {n : Nat} {s : State} (hn : j.supports n = true)
    (hv : s.viewInRange = true) (hl : n ≤ s.bufLen.toNat) (hf : fits j.kind n (s.operand j.kind.bits) = true) :
    writeVariable j t n s = .next (s.store s.bufAddr.toNat (dis (resolve t) n (s.operand (8 * n)))) := by
  have hmax : n ≤ j.kind.width := ((supports_iff j n).mp hn).2
  have hbits : 8 * n ≤ j.kind.bits := Nat.mul_le_mul_left 8 hmax
  simp [writeVariable, hn, hv, Nat.not_lt.mpr hl, hf, s.operand_mod hbits]

/-- A write that leaves no fault has passed every check. -/
theorem checks_of_writeVariable_not_faulted {j : WideKind} {t : Tag} {n : Nat} {s s₁ : State}
    (h : writeVariable j t n s = .next s₁) (hs₁ : s₁.status.fault = false) :
    j.supports n = true ∧ s.viewInRange = true ∧ n ≤ s.bufLen.toNat ∧ fits j.kind n (s.operand j.kind.bits) = true := by
  have hraise (c : FaultCode) : .next s₁ ≠ (.next (s.raise c) : Host.Outcome State Fault Refusal) := by
    rintro ⟨⟩
    simp at hs₁
  obtain ⟨-, hr⟩ | ⟨-, -, hr⟩ | ⟨-, -, -, hr⟩ | ⟨-, -, -, -, hr⟩ | ⟨hn, hv, hl, hf, -⟩ := writeVariable_cases h
  iterate 4 exact absurd hr (hraise _)
  exact ⟨hn, hv, hl, hf⟩

/-! The full width (R233 law 4) -/

section
variable (j : WideKind) (t : Tag) (s : State)

theorem supports_width : j.supports j.kind.width = true := (supports_iff j _).mpr ⟨j.kind.width_pos, le_rfl⟩

theorem readVariable_width_eq_readFixed : readVariable j t j.kind.width s = readFixed j.kind t s :=
  if_neg (by simp [supports_width])

/-- At the full width the fit check passes and the low bytes are the whole operand. -/
theorem writeVariable_width_eq_writeFixed : writeVariable j t j.kind.width s = writeFixed j.kind t s := by
  have hlow : s.operand j.kind.bits % 2 ^ (8 * j.kind.width) = s.operand j.kind.bits := s.operand_mod le_rfl
  simp [writeVariable, writeFixed, supports_width, fits_width, hlow]

theorem exec_variableRead_width : exec (variableRead j t j.kind.width) s = exec (fixedRead j.kind t) s := by
  rw [exec_variableRead, exec_fixedRead, readVariable_width_eq_readFixed]

theorem exec_variableWrite_width : exec (variableWrite j t j.kind.width) s = exec (fixedWrite j.kind t) s := by
  rw [exec_variableWrite, exec_fixedWrite, writeVariable_width_eq_writeFixed]

end

/-! The single byte (R233 law 5): one byte reads the same in either order -/

theorem asm_viewBytes_one (o : Order) (s : State) : asm o (s.viewBytes 1) = (s.mem.read s.bufAddr.toNat).toNat :=
  asm_singleton o _

theorem dis_one (o : Order) (p : Nat) : dis o 1 p = [BitVec.ofNat 8 p] := by
  cases o with
  | big => simp [dis_big]
  | little => rfl

theorem readVariable_one_tag (j : WideKind) (t t' : Tag) (s : State) : readVariable j t 1 s = readVariable j t' 1 s := by
  simp only [readVariable, asm_viewBytes_one]

theorem writeVariable_one_tag (j : WideKind) (t t' : Tag) (s : State) : writeVariable j t 1 s = writeVariable j t' 1 s := by
  simp only [writeVariable, dis_one]

end Sys2Proof.Machine
end

