-- ==== Sys2Proof/Proofs/VariableWidth.lean ====
section
/-! The obligations of spec/42_variable_width.md. -/

namespace Sys2Proof.Machine

/-- Settles O16: the answer of a read with its checks passed, whose pattern has `8N` bits. -/
theorem variableReadResult : Obligations.VariableReadResult := by
  unfold Obligations.VariableReadResult
  intro k t n s hone hmax hv hl
  have hread := readVariable_ok (t := t) ((supports_iff k n).mpr ⟨hone, hmax⟩) ((viewInRange_iff s).mpr hv) hl
  refine ⟨_, (exec_variableRead k t n s).trans hread, rfl, ?_⟩
  have hp : patternAt (resolve t) s.mem s.bufAddr.toNat n < 2 ^ (8 * n) := patternAt_lt _ _ _ _
  have hbits : 8 * n ≤ 128 := (Nat.mul_le_mul_left 8 hmax).trans k.kind.bits_le
  rw [State.v_setV]
  refine ⟨?_, ?_⟩
  · rintro (rfl | rfl) <;> exact toInt_extend_signed hp hbits
  · rintro (rfl | rfl) <;> exact toNat_extend_unsigned hp hbits

/-- Settles O17: the hypotheses on the value are the fit check of its type. -/
theorem variableWriteResult : Obligations.VariableWriteResult := by
  unfold Obligations.VariableWriteResult
  intro k t n s hone hmax hv hl hu64 hu128 hi64 hi128
  have hfits : fits k.kind n (s.operand k.kind.bits) = true := by
    cases k with
    | u64 => exact (fits_unsigned_iff rfl).mpr (s.toNat_setWidth_v 64 ▸ hu64 rfl)
    | u128 => exact (fits_unsigned_iff rfl).mpr (s.v.setWidth_eq.symm ▸ hu128 rfl)
    | i64 => exact (fits_signed_iff rfl).mpr (hi64 rfl)
    | i128 => exact (fits_signed_iff rfl).mpr (s.v.setWidth_eq.symm ▸ hi128 rfl)
  have hwrite := writeVariable_ok (t := t) ((supports_iff k n).mpr ⟨hone, hmax⟩) ((viewInRange_iff s).mpr hv) hl hfits
  refine ⟨_, (exec_variableWrite k t n s).trans hwrite, rfl, fun i hi => ?_, fun a ha => ?_⟩
  · exact Memory.read_writeBytes_dis s.mem s.bufAddr.toNat (resolve t) _ hi
  · exact Memory.read_writeBytes_outside (by rwa [dis_length])

/-- Settles O19: the write passed the fit check, so the pattern it stored extends to the value. -/
theorem variableWriteThenRead : Obligations.VariableWriteThenRead := by
  unfold Obligations.VariableWriteThenRead
  intro k t n s s₁ _ hwrite hs₁
  rw [exec_variableWrite] at hwrite
  obtain ⟨hn, hv, hl, hfits⟩ := checks_of_writeVariable_not_faulted hwrite hs₁
  obtain rfl := Host.Outcome.next.inj ((writeVariable_ok hn hv hl hfits).symm.trans hwrite)
  obtain ⟨hone, hmax⟩ := (supports_iff k n).mp hn
  refine ⟨_, (exec_variableRead k t n _).trans (readVariable_ok hn hv hl), rfl, ?_⟩
  rw [State.v_setV, State.store_mem, State.store_bufAddr, patternAt_writeBytes_dis, Nat.mod_eq_of_lt (s.operand_lt _)]
  exact extend_operand_of_fits hone hmax hfits

/-- Settles O20: `8` and `16` are the largest counts of their types. -/
theorem fullWidthIsFixedWidth : Obligations.FullWidthIsFixedWidth := by
  unfold Obligations.FullWidthIsFixedWidth
  intro t s
  exact ⟨exec_variableRead_width .u64 t s, exec_variableRead_width .i64 t s, exec_variableRead_width .u128 t s,
    exec_variableRead_width .i128 t s, exec_variableWrite_width .u64 t s, exec_variableWrite_width .i64 t s,
    exec_variableWrite_width .u128 t s, exec_variableWrite_width .i128 t s⟩

/-- Settles O21: a command uses its tag only on the one byte it moves. -/
theorem singleByteIgnoresTag : Obligations.SingleByteIgnoresTag := by
  unfold Obligations.SingleByteIgnoresTag
  intro k t t' s
  rw [exec_variableRead, exec_variableRead, exec_variableWrite, exec_variableWrite]
  exact ⟨readVariable_one_tag k t t' s, writeVariable_one_tag k t t' s⟩

end Sys2Proof.Machine
end

