-- ==== Sys2Proof/Proofs/BulkConversion.lean ====
section
/-! What the conversion loop of the bulk commands leaves in memory, element by element and byte by byte, and what a bulk command answers
in each case of its checks. -/

namespace Sys2Proof

theorem Kind.width_le (k : Kind) : k.width ≤ 16 := by cases k <;> decide

end Sys2Proof

namespace Sys2Proof.Machine

/-! Regions of one length (spec/20_memory.md R87) -/

theorem overlap_eq_false_iff (a b l : Nat) : overlap a b l = false ↔ ¬ (0 < l ∧ a < b + l ∧ b < a + l) := by
  rw [← Bool.not_eq_true, overlap_iff]

theorem overlap_comm (a b l : Nat) : overlap a b l = overlap b a l := Bool.and_right_comm _ _ _

/-- Regions that share no byte have starts that share none. -/
theorem overlap_of_le {a b l l' : Nat} (h : overlap a b l = false) (hl : l' ≤ l) : overlap a b l' = false := by
  rw [overlap_eq_false_iff] at h ⊢
  omega

/-- Element `e` of `count` elements ends inside their region. -/
theorem element_end_le {e count : Nat} (w : Nat) (he : e < count) : w * e + w ≤ w * count := Nat.mul_le_mul_left w he

/-- Every byte of a region of elements is byte `i` of an element `e`. -/
theorem exists_element_of_lt {w count j : Nat} (hj : j < w * count) : ∃ e < count, ∃ i < w, w * e + i = j :=
  ⟨j / w, Nat.div_lt_of_lt_mul hj, j % w, Nat.mod_lt j (Nat.pos_of_mul_pos_right (Nat.zero_lt_of_lt hj)), Nat.div_add_mod j w⟩

/-! Byte sequences one after another -/

theorem Memory.readBytes_add (m : Memory) (a n n' : Nat) :
    m.readBytes a (n + n') = m.readBytes a n ++ m.readBytes (a + n) n' := by
  induction n generalizing a with
  | zero => simp [Memory.readBytes]
  | succ n ih =>
    rw [Nat.succ_add, Memory.readBytes, Memory.readBytes, ih, List.cons_append, Nat.add_assoc a, Nat.add_comm 1]

theorem Memory.writeBytes_append (m : Memory) (a : Nat) (bytes rest : List Byte) :
    m.writeBytes a (bytes ++ rest) = (m.writeBytes a bytes).writeBytes (a + bytes.length) rest := by
  induction bytes generalizing m a with
  | nil => rfl
  | cons b bytes ih =>
    rw [List.cons_append, Memory.writeBytes, Memory.writeBytes, ih, List.length_cons, Nat.add_assoc, Nat.add_comm 1]

/-! A pattern read from memory and encoded again -/

section
variable {o o' : Order} {n i : Nat}

theorem dis_patternAt (o : Order) (m : Memory) (a n : Nat) : dis o n (patternAt o m a n) = m.readBytes a n := by
  rw [← asm_readBytes]
  simpa using dis_asm o (m.readBytes a n)

/-- In the order it was assembled in, a pattern encodes to its own bytes. -/
theorem encodedByte_patternAt (o : Order) (m : Memory) (a : Nat) (hi : i < n) :
    encodedByte o n (patternAt o m a n) i = m.read (a + i) := by
  apply Option.some.inj
  rw [← dis_getElem? o _ hi, dis_patternAt, Memory.readBytes_getElem? m a n i hi]

/-- The other order encodes the same bytes from the other end. -/
theorem encodedByte_of_ne (h : o ≠ o') (p : Nat) (hi : i < n) : encodedByte o n p i = encodedByte o' n p (n - 1 - i) := by
  cases o <;> cases o'
  case big.little => exact encodedByte_big n p i
  case little.big => rw [encodedByte_big, show n - 1 - (n - 1 - i) = i by omega]
  all_goals exact absurd rfl h

end

/-! The loop -/

section
variable {w src dst count e i : Nat} {so d : Order} {m : Memory}

/-- The loop changes no byte outside its destination. -/
theorem read_convert_outside {a : Nat} (h : a < dst ∨ dst + w * count ≤ a) :
    (convert w so d src dst count m).read a = m.read a := by
  induction count with
  | zero => rfl
  | succ e ih =>
    rw [Nat.mul_succ] at h
    exact (Memory.read_writeBytes_outside (by rw [dis_length]; omega)).trans (ih (by omega))

/-- One iteration converts the element that the source held before the loop: the earlier iterations did not touch it. -/
theorem convert_succ (hd : overlap src dst (w * (e + 1)) = false) :
    convert w so d src dst (e + 1) m =
      (convert w so d src dst e m).writeBytes (dst + w * e) (dis d w (patternAt so m (src + w * e) w)) := by
  rw [overlap_eq_false_iff, Nat.mul_succ] at hd
  have hsource : patternAt so (convert w so d src dst e m) (src + w * e) w = patternAt so m (src + w * e) w :=
    patternAt_congr so fun i hi => read_convert_outside (by omega)
  rw [← hsource, ← asm_readBytes]
  rfl

/-- Each element of the destination is the encoding of the element of the source as it was. -/
theorem readBytes_convert (hd : overlap src dst (w * count) = false) (he : e < count) :
    (convert w so d src dst count m).readBytes (dst + w * e) w = dis d w (patternAt so m (src + w * e) w) := by
  induction count with
  | zero => omega
  | succ n ih =>
    rw [convert_succ hd]
    obtain hlt | rfl := Nat.lt_succ_iff_lt_or_eq.mp he
    · have hend := element_end_le w hlt
      rw [Memory.readBytes_congr fun i hi => Memory.read_writeBytes_outside (by omega)]
      exact ih (overlap_of_le hd (Nat.mul_le_mul_left w n.le_succ)) hlt
    · simpa using Memory.readBytes_writeBytes (convert w so d src dst e m) (dst + w * e)
        (dis d w (patternAt so m (src + w * e) w))

/-- An element keeps its value. -/
theorem patternAt_convert (hd : overlap src dst (w * count) = false) (he : e < count) :
    patternAt d (convert w so d src dst count m) (dst + w * e) w = patternAt so m (src + w * e) w := by
  rw [← asm_readBytes, readBytes_convert hd he, asm_dis, Nat.mod_eq_of_lt (patternAt_lt _ _ _ _)]

theorem read_convert (hd : overlap src dst (w * count) = false) (he : e < count) (hi : i < w) :
    (convert w so d src dst count m).read (dst + w * e + i) = encodedByte d w (patternAt so m (src + w * e) w) i := by
  apply Option.some.inj
  rw [← dis_getElem? d _ hi, ← readBytes_convert hd he, Memory.readBytes_getElem? _ _ _ _ hi]

/-- The net effect on one byte (R259), seen from the source's order. -/
theorem read_convert_eq_read (hd : overlap src dst (w * count) = false) (he : e < count) (hi : i < w) :
    (convert w so d src dst count m).read (dst + w * e + i) = m.read (src + w * e + if so = d then i else w - 1 - i) := by
  rw [read_convert hd he hi]
  by_cases h : so = d
  · rw [if_pos h, h, encodedByte_patternAt d m _ hi]
  · rw [if_neg h, encodedByte_of_ne (Ne.symm h) _ hi, encodedByte_patternAt so m _ (by omega)]

/-- A second loop with the orders exchanged, from the destination of the first, gives back the bytes of the first source. -/
theorem read_convert_convert {dst' j : Nat} (hd : overlap src dst (w * count) = false)
    (hd' : overlap dst dst' (w * count) = false) (hj : j < w * count) :
    (convert w d so dst dst' count (convert w so d src dst count m)).read (dst' + j) = m.read (src + j) := by
  obtain ⟨e, he, i, hi, rfl⟩ := exists_element_of_lt hj
  rw [← Nat.add_assoc, ← Nat.add_assoc, read_convert hd' he hi, patternAt_convert hd he, encodedByte_patternAt so m _ hi]

/-- With one order on both sides the loop is one block copy (R256). -/
theorem convert_same_order (hd : overlap src dst (w * count) = false) :
    convert w d d src dst count m = m.writeBytes dst (m.readBytes src (w * count)) := by
  induction count with
  | zero => rfl
  | succ e ih =>
    rw [convert_succ hd, ih (overlap_of_le hd (Nat.mul_le_mul_left w e.le_succ)), dis_patternAt, Nat.mul_succ,
      Memory.readBytes_add, Memory.writeBytes_append, Memory.readBytes_length]

end

/-! The answers of the bulk commands -/

theorem sliceInRange_eq_false_iff (s : State) (k : Kind) :
    s.sliceInRange k = false ↔ memSize < s.slAddr.toNat + s.slCount.toNat * k.width := by
  rw [← Bool.not_eq_true, sliceInRange_iff, Nat.not_le]

/-- The checks of a bulk command in numbers, all passed. -/
structure State.BulkPasses (s : State) (k : Kind) : Prop where
  view : s.bufAddr.toNat + s.bufLen.toNat ≤ 2 ^ 32
  slice : s.slAddr.toNat + s.slCount.toNat * k.width ≤ 2 ^ 32
  len : s.bufLen.toNat = s.slCount.toNat * k.width
  apart : ¬ (0 < s.slCount.toNat * k.width ∧ s.bufAddr.toNat < s.slAddr.toNat + s.slCount.toNat * k.width ∧
    s.slAddr.toNat < s.bufAddr.toNat + s.slCount.toNat * k.width)

section
variable {k : Kind} {t : Tag} {s : State} {c : FaultCode}

theorem bulkFault_range (h : memSize < s.bufAddr.toNat + s.bufLen.toNat ∨
    memSize < s.slAddr.toNat + s.slCount.toNat * k.width) : bulkFault k s = some .range := by
  rw [← viewInRange_eq_false_iff, ← sliceInRange_eq_false_iff] at h
  exact if_pos h

theorem bulkFault_of_inRange (hv : s.bufAddr.toNat + s.bufLen.toNat ≤ 2 ^ 32)
    (hs : s.slAddr.toNat + s.slCount.toNat * k.width ≤ 2 ^ 32) :
    bulkFault k s = if s.bufLen.toNat ≠ s.slCount.toNat * k.width then some .len
      else if overlap s.bufAddr.toNat s.slAddr.toNat (s.slCount.toNat * k.width) then some .overlap else none :=
  if_neg (by simp [(viewInRange_iff s).mpr hv, (sliceInRange_iff s k).mpr hs])

theorem bulkFault_len (hv : s.bufAddr.toNat + s.bufLen.toNat ≤ 2 ^ 32)
    (hs : s.slAddr.toNat + s.slCount.toNat * k.width ≤ 2 ^ 32) (hl : s.bufLen.toNat ≠ s.slCount.toNat * k.width) :
    bulkFault k s = some .len := by
  rw [bulkFault_of_inRange hv hs, if_pos hl]

theorem bulkFault_overlap (hv : s.bufAddr.toNat + s.bufLen.toNat ≤ 2 ^ 32)
    (hs : s.slAddr.toNat + s.slCount.toNat * k.width ≤ 2 ^ 32) (hl : s.bufLen.toNat = s.slCount.toNat * k.width)
    (ho : 0 < s.slCount.toNat * k.width ∧ s.bufAddr.toNat < s.slAddr.toNat + s.slCount.toNat * k.width ∧
      s.slAddr.toNat < s.bufAddr.toNat + s.slCount.toNat * k.width) : bulkFault k s = some .overlap := by
  rw [bulkFault_of_inRange hv hs, if_neg (not_not.mpr hl), if_pos ((overlap_iff _ _ _).mpr ho)]

namespace State.BulkPasses

theorem bulkFault_eq_none (h : s.BulkPasses k) : bulkFault k s = none := by
  rw [bulkFault_of_inRange h.view h.slice, if_neg (not_not.mpr h.len), (overlap_eq_false_iff _ _ _).mpr h.apart]
  rfl

/-- The two regions, with their length written as in the loop. -/
theorem overlap_view_slice (h : s.BulkPasses k) :
    overlap s.bufAddr.toNat s.slAddr.toNat (k.width * s.slCount.toNat) = false := by
  rw [Nat.mul_comm]
  exact (overlap_eq_false_iff _ _ _).mpr h.apart

theorem overlap_slice_view (h : s.BulkPasses k) :
    overlap s.slAddr.toNat s.bufAddr.toNat (k.width * s.slCount.toNat) = false :=
  (overlap_comm _ _ _).trans h.overlap_view_slice

end State.BulkPasses

theorem exec_bulkRead_fault (h : bulkFault k s = some c) : exec (bulkRead k t) s = .next (s.raise c) := by
  rw [exec_bulkRead, readBulk, h]

theorem exec_bulkWrite_fault (h : bulkFault k s = some c) : exec (bulkWrite k t) s = .next (s.raise c) := by
  rw [exec_bulkWrite, writeBulk, h]

theorem exec_bulkRead_ok (h : s.BulkPasses k) :
    exec (bulkRead k t) s = .next
      { s with mem := convert k.width (resolve t) (resolve .ne) s.bufAddr.toNat s.slAddr.toNat s.slCount.toNat s.mem } := by
  rw [exec_bulkRead, readBulk, h.bulkFault_eq_none]

theorem exec_bulkWrite_ok (h : s.BulkPasses k) :
    exec (bulkWrite k t) s = .next
      { s with mem := convert k.width (resolve .ne) (resolve t) s.slAddr.toNat s.bufAddr.toNat s.slCount.toNat s.mem } := by
  rw [exec_bulkWrite, writeBulk, h.bulkFault_eq_none]

end

end Sys2Proof.Machine
end

