-- ==== Sys2Proof/Proofs/BulkSlice.lean ====
section
/-! The obligations of spec/43_bulk_slice.md. -/

namespace Sys2Proof.Machine

/-- Settles O22: the three faults, and the answer of a write with its checks passed. -/
theorem bulkWriteResult : Obligations.BulkWriteResult := by
  unfold Obligations.BulkWriteResult
  intro k t s A S L
  refine ⟨fun hr => exec_bulkWrite_fault (bulkFault_range hr), fun hv hs hl => exec_bulkWrite_fault (bulkFault_len hv hs hl),
    fun hv hs hl ho => exec_bulkWrite_fault (bulkFault_overlap hv hs hl ho), fun hv hs hl ho => ?_⟩
  have hpass : s.BulkPasses k := ⟨hv, hs, hl, ho⟩
  refine ⟨_, exec_bulkWrite_ok hpass, rfl, fun e he => patternAt_convert hpass.overlap_slice_view he, fun a ha => ?_⟩
  exact read_convert_outside (by rwa [Nat.mul_comm k.width])

/-- Settles O23: the same with the slice as the destination. -/
theorem bulkReadResult : Obligations.BulkReadResult := by
  unfold Obligations.BulkReadResult
  intro k t s A S L
  refine ⟨fun hr => exec_bulkRead_fault (bulkFault_range hr), fun hv hs hl => exec_bulkRead_fault (bulkFault_len hv hs hl),
    fun hv hs hl ho => exec_bulkRead_fault (bulkFault_overlap hv hs hl ho), fun hv hs hl ho => ?_⟩
  have hpass : s.BulkPasses k := ⟨hv, hs, hl, ho⟩
  refine ⟨_, exec_bulkRead_ok hpass, rfl, fun e he => patternAt_convert hpass.overlap_view_slice he, fun a ha => ?_⟩
  exact read_convert_outside (by rwa [Nat.mul_comm k.width])

/-- Settles O24: the net effect of the loop, once from the buffer to the slice and once back. -/
theorem bulkNetEffect : Obligations.BulkNetEffect := by
  unfold Obligations.BulkNetEffect
  intro k t s A S W L place hv hs hl ho
  have hpass : s.BulkPasses k := ⟨hv, hs, hl, ho⟩
  refine ⟨_, _, exec_bulkRead_ok hpass, exec_bulkWrite_ok hpass, fun e he i hi => ⟨?_, ?_⟩⟩
  · exact read_convert_eq_read hpass.overlap_view_slice he hi
  · have hplace : place i = if resolve .ne = resolve t then i else W - 1 - i := if_congr eq_comm rfl rfl
    rw [hplace]
    exact read_convert_eq_read hpass.overlap_slice_view he hi

/-- Settles O26: the two memories are equal as data whether or not memory is canonical. -/
theorem fastPathIsBlockCopy : Obligations.FastPathIsBlockCopy := by
  unfold Obligations.FastPathIsBlockCopy
  intro k t s _ horder A S L hv hs hl ho
  have hpass : s.BulkPasses k := ⟨hv, hs, hl, ho⟩
  rw [exec_bulkRead_ok hpass, exec_bulkWrite_ok hpass, horder, convert_same_order hpass.overlap_view_slice,
    convert_same_order hpass.overlap_slice_view, Nat.mul_comm k.width]
  exact ⟨rfl, rfl⟩

/-- Settles O27: the scalar read of element `e` finds the pattern that the bulk write kept. -/
theorem bulkWriteThenScalarRead : Obligations.BulkWriteThenScalarRead := by
  unfold Obligations.BulkWriteThenScalarRead
  intro k t s A S L hv hs hl ho
  have hpass : s.BulkPasses k := ⟨hv, hs, hl, ho⟩
  refine ⟨_, exec_bulkWrite_ok hpass, fun e he => ?_⟩
  have hend : A + k.width * e + k.width ≤ 2 ^ 32 := by
    have hinside : k.width * e + k.width ≤ L := (element_end_le k.width he).trans (Nat.mul_comm _ _).le
    omega
  have hpos := k.width_pos
  have hmax := k.width_le
  have haddr : (BitVec.ofNat 32 (A + k.width * e)).toNat = A + k.width * e := Nat.mod_eq_of_lt (by omega)
  have hwidth : (BitVec.ofNat 32 k.width).toNat = k.width := Nat.mod_eq_of_lt (by omega)
  let m := convert k.width (resolve .ne) (resolve t) S A s.slCount.toNat s.mem
  have hkept : patternAt (resolve t) m (A + k.width * e) k.width = patternAt (resolve .ne) s.mem (S + k.width * e) k.width :=
    patternAt_convert hpass.overlap_slice_view he
  obtain ⟨-, -, hread⟩ := fixedReadResult k t
    { s with mem := m, bufAddr := BitVec.ofNat 32 (A + k.width * e), bufLen := BitVec.ofNat 32 k.width }
  simp only [haddr, hwidth, hkept] at hread
  obtain ⟨s₂, hs₂, hframe, hvalue⟩ := hread hend le_rfl
  exact ⟨s₂, hs₂, by rw [hframe], hvalue⟩

/-- Settles O28: the read runs the loop of the write again, with the orders exchanged. -/
theorem bulkReadInvertsBulkWrite : Obligations.BulkReadInvertsBulkWrite := by
  unfold Obligations.BulkReadInvertsBulkWrite
  intro k t s d A S D L hv hs hd hl ho ho'
  have hwrite : s.BulkPasses k := ⟨hv, hs, hl, ho⟩
  let s₁ := { s with mem := convert k.width (resolve .ne) (resolve t) S A s.slCount.toNat s.mem }
  have hread : State.BulkPasses { s₁ with slAddr := d } k := ⟨hv, hd, hl, ho'⟩
  refine ⟨s₁, _, exec_bulkWrite_ok hwrite, exec_bulkRead_ok hread, fun j hj => ?_⟩
  exact read_convert_convert hwrite.overlap_slice_view hread.overlap_view_slice (Nat.mul_comm k.width _ ▸ hj)

/-- Settles O25: an empty view passes the checks and the loop has no iteration; any other view has the wrong length. -/
theorem bulkOfZeroElements : Obligations.BulkOfZeroElements := by
  unfold Obligations.BulkOfZeroElements
  intro k t s hzero
  have hcount : s.slCount.toNat = 0 := by rw [hzero]; rfl
  have hbytes : s.slCount.toNat * k.width = 0 := by rw [hcount, Nat.zero_mul]
  have hslice : s.slAddr.toNat + s.slCount.toNat * k.width ≤ 2 ^ 32 := by
    rw [hbytes]
    exact s.slAddr.isLt.le
  refine ⟨fun hempty => ?_, fun hne => ?_⟩
  · have hlen : s.bufLen.toNat = 0 := by rw [hempty]; rfl
    have hpass : s.BulkPasses k := ⟨hlen ▸ s.bufAddr.isLt.le, hslice, hlen.trans hbytes.symm, by omega⟩
    rw [exec_bulkRead_ok hpass, exec_bulkWrite_ok hpass, hcount]
    exact ⟨rfl, rfl⟩
  · have hlen : s.bufLen.toNat ≠ s.slCount.toNat * k.width := by
      rw [hbytes]
      exact fun h => hne (BitVec.eq_of_toNat_eq h)
    dsimp only
    by_cases hview : 2 ^ 32 < s.bufAddr.toNat + s.bufLen.toNat
    · have hfault := bulkFault_range (k := k) (.inl hview)
      rw [if_pos hview]
      exact ⟨exec_bulkRead_fault hfault, exec_bulkWrite_fault hfault⟩
    · have hfault := bulkFault_len (Nat.not_lt.mp hview) hslice hlen
      rw [if_neg hview]
      exact ⟨exec_bulkRead_fault hfault, exec_bulkWrite_fault hfault⟩

end Sys2Proof.Machine
end

