-- ==== Sys2Proof/Proofs/FaultCauses.lean ====
section
/-! The causes that apply to a command by their rules (spec/60_exceptions.md R293 to R298) against the checks the command makes: a
command faults with the first cause that applies, and keeps `STATUS` when none does (R299). -/

namespace Sys2Proof.Machine

/-- `c` applies, and no cause with a lower code does. -/
structure IsFirstCause (p : FaultCode → Prop) (c : FaultCode) : Prop where
  applies : p c
  le : ∀ d, p d → c.code.toNat ≤ d.code.toNat

theorem IsFirstCause.code_eq {p : FaultCode → Prop} {c d : FaultCode} (hc : IsFirstCause p c)
    (hd : IsFirstCause p d) : c.code = d.code :=
  BitVec.eq_of_toNat_eq ((hc.le d hd.applies).antisymm (hd.le c hc.applies))

/-- A first cause is unique, so it latches one `STATUS`. -/
theorem IsFirstCause.raise_eq {p : FaultCode → Prop} {c d : FaultCode} (hc : IsFirstCause p c)
    (hd : IsFirstCause p d) (s : State) : s.raise c = s.raise d := by
  rw [State.raise, State.raise, Status.latched, Status.latched, hc.code_eq hd]

/-- An outcome reports the causes that apply (R299): the first of them is raised, or there is none and `STATUS` stays. -/
def ReportsFirst (p : FaultCode → Prop) (s : State) (r : Host.Outcome State Fault Refusal) : Prop :=
  (∃ c, IsFirstCause p c ∧ r = .next (s.raise c)) ∨
    (∀ c, ¬ p c) ∧ ∃ s', r = .next s' ∧ s'.status = s.status

/-! The causes that apply, operation by operation, as the model's checks and in their order -/

section
variable {i : Instr} {k : Kind} {j : WideKind} {t : Tag} {n x : Nat} {s s' : State} {c : FaultCode}
  {r : Host.Outcome State Fault Refusal}

theorem supports_eq_false_iff : j.supports n = false ↔ n = 0 ∨ j.kind.width < n := by
  rw [← Bool.not_eq_true, supports_iff, WideKind.maxCount]
  omega

theorem fits_eq_false_iff : fits k n x = false ↔
    if k.signed then sval k.bits x < -(2 ^ (8 * n - 1) : Int) ∨ (2 ^ (8 * n - 1) : Int) ≤ sval k.bits x
    else 2 ^ (8 * n) ≤ x := by
  rw [← Bool.not_eq_true, fits]
  cases k.signed with
  | true => simp [imp_iff_not_or]
  | false => simp

theorem causeAppliesTo_fixed (h : i.command.op = .read ∨ i.command.op = .write) :
    causeAppliesTo i s c ↔
      c = .range ∧ s.viewInRange = false ∨ c = .short ∧ s.bufLen.toNat < i.command.kind.width := by
  obtain h | h := h <;> cases c <;> simp [causeAppliesTo, h, viewInRange_eq_false_iff, memSize]

theorem causeAppliesTo_variableRead :
    causeAppliesTo (variableRead j t n) s c ↔
      c = .width ∧ j.supports n = false ∨ c = .range ∧ s.viewInRange = false ∨ c = .short ∧ s.bufLen.toNat < n := by
  cases c <;> simp [causeAppliesTo, viewInRange_eq_false_iff, supports_eq_false_iff, memSize]

theorem causeAppliesTo_variableWrite :
    causeAppliesTo (variableWrite j t n) s c ↔
      c = .width ∧ j.supports n = false ∨ c = .range ∧ s.viewInRange = false ∨ c = .short ∧ s.bufLen.toNat < n ∨
        c = .fit ∧ fits j.kind n (s.operand j.kind.bits) = false := by
  cases c <;> simp [causeAppliesTo, viewInRange_eq_false_iff, supports_eq_false_iff, fits_eq_false_iff, Kind.bits,
    memSize]

theorem causeAppliesTo_bulk (h : i.command.op = .readInto ∨ i.command.op = .writeInto) :
    causeAppliesTo i s c ↔
      c = .range ∧ (s.viewInRange = false ∨ s.sliceInRange i.command.kind = false) ∨
      c = .len ∧ s.bufLen.toNat ≠ s.sliceBytes i.command.kind ∨
      c = .overlap ∧ overlap s.bufAddr.toNat s.slAddr.toNat (s.sliceBytes i.command.kind) = true := by
  obtain h | h := h <;> cases c <;>
    simp [causeAppliesTo, h, viewInRange_eq_false_iff, sliceInRange_eq_false_iff, overlap_iff, State.sliceBytes, memSize]

/-! A command reports the first of its causes: at a check that fails, the checks before it have ruled out the lower codes -/

/-- Both fixed-width operations check the view, then its length. -/
theorem reportsFirst_fixed (hop : i.command.op = .read ∨ i.command.op = .write) (hs' : s'.status = s.status)
    (h : (s.viewInRange = false ∧ r = .next (s.raise .range)) ∨
      (s.viewInRange = true ∧ s.bufLen.toNat < i.command.kind.width ∧ r = .next (s.raise .short)) ∨
      (s.viewInRange = true ∧ i.command.kind.width ≤ s.bufLen.toNat ∧ r = .next s')) :
    ReportsFirst (causeAppliesTo i s) s r := by
  have table c := causeAppliesTo_fixed (s := s) (c := c) hop
  obtain ⟨hv, rfl⟩ | ⟨hv, hl, rfl⟩ | ⟨hv, hl, rfl⟩ := h
  · exact .inl ⟨.range, ⟨by simp [table, hv], by simp [table, or_imp, forall_and, FaultCode.code]⟩, rfl⟩
  · exact .inl ⟨.short, ⟨by simp [table, hl], by simp [table, hv, FaultCode.code]⟩, rfl⟩
  · exact .inr ⟨by simp [table, hv, hl], s', rfl, hs'⟩

theorem readVariable_reportsFirst :
    ReportsFirst (causeAppliesTo (variableRead j t n) s) s (readVariable j t n s) := by
  have table c := causeAppliesTo_variableRead (j := j) (t := t) (n := n) (s := s) (c := c)
  obtain ⟨hn, h⟩ | ⟨hn, hv, h⟩ | ⟨hn, hv, hl, h⟩ | ⟨hn, hv, hl, h⟩ :=
    readVariable_cases (k := j) (t := t) (n := n) (s := s) rfl
  · exact .inl ⟨.width, ⟨by simp [table, hn], by simp [table, or_imp, forall_and, FaultCode.code]⟩, h⟩
  · exact .inl ⟨.range, ⟨by simp [table, hv], by simp [table, or_imp, forall_and, hn, FaultCode.code]⟩, h⟩
  · exact .inl ⟨.short, ⟨by simp [table, hl], by simp [table, hn, hv, FaultCode.code]⟩, h⟩
  · exact .inr ⟨by simp [table, hn, hv, hl], _, h, rfl⟩

theorem writeVariable_reportsFirst :
    ReportsFirst (causeAppliesTo (variableWrite j t n) s) s (writeVariable j t n s) := by
  have table c := causeAppliesTo_variableWrite (j := j) (t := t) (n := n) (s := s) (c := c)
  obtain ⟨hn, h⟩ | ⟨hn, hv, h⟩ | ⟨hn, hv, hl, h⟩ | ⟨hn, hv, hl, hf, h⟩ | ⟨hn, hv, hl, hf, h⟩ :=
    writeVariable_cases (k := j) (t := t) (n := n) (s := s) rfl
  · exact .inl ⟨.width, ⟨by simp [table, hn], by simp [table, or_imp, forall_and, FaultCode.code]⟩, h⟩
  · exact .inl ⟨.range, ⟨by simp [table, hv], by simp [table, or_imp, forall_and, hn, FaultCode.code]⟩, h⟩
  · exact .inl ⟨.short, ⟨by simp [table, hl], by simp [table, or_imp, forall_and, hn, hv, FaultCode.code]⟩, h⟩
  · exact .inl ⟨.fit, ⟨by simp [table, hf], by simp [table, or_imp, hn, hv, hl, FaultCode.code]⟩, h⟩
  · exact .inr ⟨by simp [table, hn, hv, hl, hf], _, h, rfl⟩

/-- The checks of a bulk command find the first of its causes. -/
theorem bulkFault_isFirstCause (hop : i.command.op = .readInto ∨ i.command.op = .writeInto)
    (h : bulkFault i.command.kind s = some c) : IsFirstCause (causeAppliesTo i s) c := by
  have table c := causeAppliesTo_bulk (s := s) (c := c) hop
  obtain ⟨hr, hc⟩ | ⟨hv, hs, hl, hc⟩ | ⟨hv, hs, hl, ho, hc⟩ | ⟨-, -, -, -, hc⟩ := bulkFault_cases i.command.kind s
  · obtain rfl := Option.some.inj (hc.symm.trans h)
    exact ⟨by simp [table, hr], by simp [table, or_imp, forall_and, FaultCode.code]⟩
  · obtain rfl := Option.some.inj (hc.symm.trans h)
    exact ⟨by simp [table, hl], by simp [table, or_imp, forall_and, hv, hs, FaultCode.code]⟩
  · obtain rfl := Option.some.inj (hc.symm.trans h)
    exact ⟨by simp [table, ho], by simp [table, hv, hs, hl, FaultCode.code]⟩
  · cases hc.symm.trans h

theorem no_cause_of_bulkFault_none (hop : i.command.op = .readInto ∨ i.command.op = .writeInto)
    (h : bulkFault i.command.kind s = none) (c : FaultCode) : ¬ causeAppliesTo i s c := by
  rw [causeAppliesTo_bulk hop]
  obtain ⟨-, hc⟩ | ⟨-, -, -, hc⟩ | ⟨-, -, -, -, hc⟩ | ⟨hv, hs, hl, ho, -⟩ := bulkFault_cases i.command.kind s
  iterate 3 cases hc.symm.trans h
  simp [hv, hs, hl, ho]

/-- Both bulk operations make the checks of `bulkFault`. -/
theorem reportsFirst_bulk {m : Memory} (hop : i.command.op = .readInto ∨ i.command.op = .writeInto)
    (h : (∃ c, bulkFault i.command.kind s = some c ∧ r = .next (s.raise c)) ∨
      (bulkFault i.command.kind s = none ∧ r = .next { s with mem := m })) :
    ReportsFirst (causeAppliesTo i s) s r := by
  obtain ⟨c, hc, hr⟩ | ⟨hnone, hr⟩ := h
  · exact .inl ⟨c, bulkFault_isFirstCause hop hc, hr⟩
  · exact .inr ⟨no_cause_of_bulkFault_none hop hnone, _, hr, rfl⟩

end

theorem exec_reportsFirst (i : Instr) (s : State) : ReportsFirst (causeAppliesTo i s) s (exec i s) := by
  obtain ⟨k, t, rfl⟩ | ⟨k, t, rfl⟩ | ⟨k, t, n, rfl⟩ | ⟨k, t, n, rfl⟩ | ⟨k, t, rfl⟩ | ⟨k, t, rfl⟩ := Instr.by_operation i
  · rw [exec_fixedRead]
    exact reportsFirst_fixed (.inl (fixedRead_op k t)) (State.setV_status s _) (by simpa using readFixed_cases rfl)
  · rw [exec_fixedWrite]
    exact reportsFirst_fixed (.inr (fixedWrite_op k t)) (State.store_status s _ _) (by simpa using writeFixed_cases rfl)
  · rw [exec_variableRead]
    exact readVariable_reportsFirst
  · rw [exec_variableWrite]
    exact writeVariable_reportsFirst
  · rw [exec_bulkRead]
    exact reportsFirst_bulk (.inl (bulkRead_op k t)) (by rw [bulkRead_command]; exact readBulk_cases rfl)
  · rw [exec_bulkWrite]
    exact reportsFirst_bulk (.inr (bulkWrite_op k t)) (by rw [bulkWrite_command]; exact writeBulk_cases rfl)

/-- A word reports the first of its causes; `E_ILLEGAL` is the only cause of a word that is no command (R292). -/
theorem execute_reportsFirst (w : Word) (s : State) : ReportsFirst (causeApplies w s) s (execute w s) := by
  unfold causeApplies
  obtain ⟨e, hw, hexec⟩ | ⟨i, hw, hexec⟩ := execute_cases w s
  · rw [hw, hexec]
    exact .inl ⟨.illegal, ⟨rfl, fun d hd => hd ▸ le_rfl⟩, rfl⟩
  · rw [hw, hexec]
    exact exec_reportsFirst i s

section
variable {w : Word} {s u s' : State} {c : FaultCode}

theorem execute_of_isFirstCause (h : IsFirstCause (causeApplies w s) c) : execute w s = .next (s.raise c) := by
  obtain ⟨d, hd, hexec⟩ | ⟨hnone, -⟩ := execute_reportsFirst w s
  · rw [hexec, hd.raise_eq h]
  · exact absurd h.applies (hnone c)

theorem execute_of_no_cause (h : ∀ c, ¬ causeApplies w s c) : ∃ s', execute w s = .next s' ∧ s'.status = s.status := by
  obtain ⟨d, hd, -⟩ | ⟨-, hexec⟩ := execute_reportsFirst w s
  · exact absurd hd.applies (h d)
  · exact hexec

theorem isFirstCause_of_execute_faulted (hs : s.status.fault = false) (hexec : execute w s = .next s')
    (hs' : s'.status.fault = true) : ∃ c, IsFirstCause (causeApplies w s) c ∧ s' = s.raise c := by
  obtain ⟨c, hc, hr⟩ | ⟨-, u, hu, hstatus⟩ := execute_reportsFirst w s
  · exact ⟨c, hc, Host.Outcome.next.inj (hexec.symm.trans hr)⟩
  · obtain rfl := Host.Outcome.next.inj (hexec.symm.trans hu)
    rw [hstatus, hs] at hs'
    cases hs'

/-! The causes depend on the operand registers and `V` alone, not on memory -/

/-- Two states agree on all that a check of a command reads. -/
structure State.SameOperands (s u : State) : Prop where
  bufAddr : s.bufAddr = u.bufAddr
  bufLen : s.bufLen = u.bufLen
  slAddr : s.slAddr = u.slAddr
  slCount : s.slCount = u.slCount
  v : s.v = u.v

theorem causeApplies_congr (h : s.SameOperands u) : causeApplies w s = causeApplies w u := by
  funext c
  simp only [causeApplies, causeAppliesTo, State.operand, h.bufAddr, h.bufLen, h.slAddr, h.slCount, h.v]

/-- A word that faults faults with the same `STATUS` in every state with the same operands. -/
theorem execute_faulted_congr (h : s.SameOperands u) (hs : s.status.fault = false) (hexec : execute w s = .next s')
    (hs' : s'.status.fault = true) : execute w u = .next { u with status := s'.status } := by
  obtain ⟨c, hc, rfl⟩ := isFirstCause_of_execute_faulted hs hexec hs'
  exact execute_of_isFirstCause (causeApplies_congr h ▸ hc)

end

end Sys2Proof.Machine
end

