-- ==== Sys2Proof/Proofs/FrozenBlock.lean ====
section
/-! What the host's accesses do to a frozen block (spec/60_exceptions.md R302), and that the cause of its fault stays recorded (R291). -/

namespace Sys2Proof.Machine

section
variable {s s' u : State} {a : HostAccess} {w : Word}

/-! The freeze: a frozen block answers reads and does nothing else -/

theorem serve_frozen (hs : s.status.fault = true) (hkeeps : a.keepsFault = true) (hspares : a.sparesMemory = true)
    (h : serve a s = .next s') : ∃ rs, s' = { s with responses := rs } := by
  cases a with
  | regRead size offset =>
    simp only [serve, hostRead] at h
    split at h
    · exact ⟨_, (Host.Outcome.next.inj h).symm⟩
    · cases h
  | regWrite size offset data =>
    simp only [serve, hostWrite, State.frozen_eq, hs, if_true] at h
    split at h
    · exact ⟨s.responses, (Host.Outcome.next.inj h).symm⟩
    · cases h
  | memRead addr =>
    simp only [serve, hostMemRead] at h
    split at h
    · exact ⟨_, (Host.Outcome.next.inj h).symm⟩
    · cases h
  | reset => cases hkeeps
  | cutCommand data => cases hkeeps
  | memWrite addr data => cases hspares

/-- Any number of such accesses changes nothing but the model's own lists. -/
theorem steps_frozen {k : Nat} (hs : s.status.fault = true)
    (hpending : ∀ a ∈ s.pending, a.keepsFault = true ∧ a.sparesMemory = true) (h : steps k s = .next s') :
    ∃ p rs, s' = { s with pending := p, responses := rs } := by
  induction k generalizing s with
  | zero => exact ⟨s.pending, s.responses, (Host.Outcome.next.inj h).symm⟩
  | succ k ih =>
    obtain ⟨s₁, hstep, hrest⟩ := steps_succ_inv h
    cases hp : s.pending with
    | nil =>
      rw [step_idle s hp] at hstep
      obtain rfl := Host.Outcome.next.inj hstep
      exact ih hs hpending hrest
    | cons a rest =>
      rw [step_serves hp] at hstep
      obtain ⟨⟨hkeeps, hspares⟩, hall⟩ := List.forall_mem_cons.mp (hp ▸ hpending)
      obtain ⟨rs, rfl⟩ := serve_frozen (s := { s with pending := rest }) hs hkeeps hspares hstep
      obtain ⟨p, rs', rfl⟩ := ih (s := { s with pending := rest, responses := rs }) hs hall hrest
      exact ⟨p, rs', rfl⟩

/-! The record of the fault -/

theorem State.faultRecorded_of_not_faulted (h : s.status.fault = false) : s.faultRecorded := fun hf => by
  rw [h] at hf
  cases hf

/-- The record lies in `CMD`, `STATUS`, the operand registers and `V`: memory has no part in it. -/
theorem State.faultRecorded_congr (h : s.faultRecorded) (hops : s.SameOperands u) (hcmd : s.cmd = u.cmd)
    (hstatus : s.status = u.status) : u.faultRecorded := by
  intro hu
  rw [← hstatus] at hu
  have hclear : State.SameOperands { s with status := Status.clear } { u with status := Status.clear } :=
    ⟨hops.bufAddr, hops.bufLen, hops.slAddr, hops.slCount, hops.v⟩
  have hagain := execute_faulted_congr hclear rfl (h hu) hu
  rwa [hcmd, hstatus] at hagain

/-- The word in `CMD` that has just run records the fault it took. -/
theorem execute_faultRecorded (hs : s.status.fault = false) (hexec : execute s.cmd s = .next s') : s'.faultRecorded := by
  intro hs'
  obtain ⟨c, -, rfl⟩ := isFirstCause_of_execute_faulted hs hexec hs'
  exact execute_faulted_congr (s := s) (u := { s.raise c with status := Status.clear }) ⟨rfl, rfl, rfl, rfl, rfl⟩ hs hexec hs'

theorem hostWrite_faultRecorded {offset : Nat} {d : Word} (h : s.faultRecorded) (hw : hostWrite offset d s = .next s') :
    s'.faultRecorded := by
  obtain ⟨-, he⟩ | ⟨-, -, he⟩ | ⟨hs, -, he⟩ | ⟨hs, r, -, -, he⟩ := hostWrite_cases offset d s <;> rw [he] at hw
  · obtain rfl := Host.Outcome.next.inj hw
    exact h
  · obtain rfl := Host.Outcome.next.inj hw
    exact h
  · exact execute_faultRecorded (s := { s with cmd := d }) hs hw
  · obtain rfl := Host.Outcome.next.inj hw
    exact State.faultRecorded_of_not_faulted ((congrArg Status.fault (s.writeReg_status r d)).trans hs)

theorem serve_faultRecorded (h : s.faultRecorded) (ha : serve a s = .next s') : s'.faultRecorded := by
  cases a with
  | regRead size offset =>
    simp only [serve, hostRead] at ha
    split at ha
    · obtain rfl := Host.Outcome.next.inj ha
      exact State.faultRecorded_congr h ⟨rfl, rfl, rfl, rfl, rfl⟩ rfl rfl
    · cases ha
  | regWrite size offset data =>
    simp only [serve] at ha
    split at ha
    · exact hostWrite_faultRecorded h ha
    · cases ha
  | reset =>
    obtain rfl := Host.Outcome.next.inj ha
    exact State.faultRecorded_of_not_faulted rfl
  | memRead addr =>
    simp only [serve, hostMemRead] at ha
    split at ha
    · obtain rfl := Host.Outcome.next.inj ha
      exact State.faultRecorded_congr h ⟨rfl, rfl, rfl, rfl, rfl⟩ rfl rfl
    · cases ha
  | memWrite addr data =>
    simp only [serve, hostMemWrite] at ha
    split at ha
    · obtain rfl := Host.Outcome.next.inj ha
      exact State.faultRecorded_congr h ⟨rfl, rfl, rfl, rfl, rfl⟩ rfl rfl
    · cases ha
  | cutCommand data =>
    obtain ⟨done, -, rfl⟩ := cutCommand_next ha
    exact State.faultRecorded_of_not_faulted rfl

end

end Sys2Proof.Machine
end

