-- ==== Sys2Proof/Proofs/Exceptions.lean ====
section
/-! The obligations of spec/60_exceptions.md. -/

namespace Sys2Proof.Machine

section
variable {k : Kind} {j : WideKind} {t : Tag} {n : Nat} {s : State} {a c : Word}

/-! The scalar commands on a view out of range, and on a value that does not fit -/

theorem readVariable_range (hn : j.supports n = true) (hv : s.viewInRange = false) :
    readVariable j t n s = .next (s.raise .range) := by simp [readVariable, hn, hv]

theorem writeVariable_range (hn : j.supports n = true) (hv : s.viewInRange = false) :
    writeVariable j t n s = .next (s.raise .range) := by simp [writeVariable, hn, hv]

theorem writeVariable_fit (hn : j.supports n = true) (hv : s.viewInRange = true) (hl : n ≤ s.bufLen.toNat)
    (hf : fits j.kind n (s.operand j.kind.bits) = false) : writeVariable j t n s = .next (s.raise .fit) := by
  simp [writeVariable, hn, hv, Nat.not_lt.mpr hl, hf]

/-! The scalar commands do not look at the value slice (R294) -/

/-- `s` with another value slice. -/
def State.withSlice (s : State) (a c : Word) : State := { s with slAddr := a, slCount := c }

theorem Effect.apply_withSlice (e : Effect) : e.apply (s.withSlice a c) = (e.apply s).withSlice a c := by
  cases e <;> rfl

theorem readFixed_sameEffect_withSlice : SameEffect (readFixed k t) s (s.withSlice a c) := by
  obtain ⟨hv, h⟩ | ⟨hv, hl, h⟩ | ⟨hv, hl, -⟩ := readFixed_cases (k := k) (t := t) (s := s) rfl
  · exact ⟨.fault .range, h, readFixed_range hv⟩
  · exact ⟨.fault .short, h, readFixed_short hv hl⟩
  · exact ⟨.value _, readFixed_ok hv hl, readFixed_ok hv hl⟩

theorem writeFixed_sameEffect_withSlice : SameEffect (writeFixed k t) s (s.withSlice a c) := by
  obtain ⟨hv, h⟩ | ⟨hv, hl, h⟩ | ⟨hv, hl, h⟩ := writeFixed_cases (k := k) (t := t) (s := s) rfl
  · exact ⟨.fault .range, h, writeFixed_range hv⟩
  · exact ⟨.fault .short, h, writeFixed_short hv hl⟩
  · exact ⟨.store _ _, h, writeFixed_ok hv hl⟩

theorem readVariable_sameEffect_withSlice : SameEffect (readVariable j t n) s (s.withSlice a c) := by
  obtain ⟨hn, h⟩ | ⟨hn, hv, h⟩ | ⟨hn, hv, hl, h⟩ | ⟨hn, hv, hl, -⟩ :=
    readVariable_cases (k := j) (t := t) (n := n) (s := s) rfl
  · exact ⟨.fault .width, h, readVariable_width hn⟩
  · exact ⟨.fault .range, h, readVariable_range hn hv⟩
  · exact ⟨.fault .short, h, readVariable_short hn hv hl⟩
  · exact ⟨.value _, readVariable_ok hn hv hl, readVariable_ok hn hv hl⟩

theorem writeVariable_sameEffect_withSlice : SameEffect (writeVariable j t n) s (s.withSlice a c) := by
  obtain ⟨hn, h⟩ | ⟨hn, hv, h⟩ | ⟨hn, hv, hl, h⟩ | ⟨hn, hv, hl, hf, h⟩ | ⟨hn, hv, hl, hf, -⟩ :=
    writeVariable_cases (k := j) (t := t) (n := n) (s := s) rfl
  · exact ⟨.fault .width, h, writeVariable_width hn⟩
  · exact ⟨.fault .range, h, writeVariable_range hn hv⟩
  · exact ⟨.fault .short, h, writeVariable_short hn hv hl⟩
  · exact ⟨.fault .fit, h, writeVariable_fit hn hv hl hf⟩
  · exact ⟨.store _ _, writeVariable_ok hn hv hl hf, writeVariable_ok hn hv hl hf⟩

theorem exec_withSlice_of_sameEffect {i : Instr} {s' : State} (h : SameEffect (exec i) s (s.withSlice a c))
    (hs' : exec i s = .next s') : exec i (s.withSlice a c) = .next (s'.withSlice a c) := by
  obtain ⟨e, hs, hslice⟩ := h
  obtain rfl := Host.Outcome.next.inj (hs.symm.trans hs')
  rw [hslice, e.apply_withSlice]

/-! The overlap test (R87) -/

/-- Two regions of length `l` share a byte exactly when each starts below the end of the other and they are not empty. -/
theorem exists_shared_iff (x y l : Nat) :
    (∃ b, x ≤ b ∧ b < x + l ∧ y ≤ b ∧ b < y + l) ↔ 0 < l ∧ x < y + l ∧ y < x + l :=
  ⟨fun ⟨_, _⟩ => by omega, fun _ => ⟨max x y, by omega⟩⟩

end

/-- Settles O52: a step is idle or serves one access, and every access keeps the fault recorded. -/
theorem stepKeepsFaultRecord : Obligations.StepKeepsFaultRecord := by
  unfold Obligations.StepKeepsFaultRecord
  intro s s' hrec hstep
  cases hp : s.pending with
  | nil =>
    rw [step_idle s hp] at hstep
    obtain rfl := Host.Outcome.next.inj hstep
    exact hrec
  | cons a rest =>
    rw [step_serves hp] at hstep
    exact serve_faultRecorded (s := { s with pending := rest })
      (State.faultRecorded_congr hrec ⟨rfl, rfl, rfl, rfl, rfl⟩ rfl rfl) hstep

/-- Settles O18: the fit check of each type is its range. -/
theorem fitCheckDecides : Obligations.FitCheckDecides := by
  unfold Obligations.FitCheckDecides
  intro k t n s hone hmax hv hl representable
  have hfits : fits k.kind n (s.operand k.kind.bits) = true ↔ representable := by
    cases k with
    | u64 => exact fits_unsigned_iff rfl
    | i64 => exact fits_signed_iff rfl
    | u128 => exact (fits_unsigned_iff rfl).trans (by rw [show WideKind.u128.kind.bits = 128 from rfl, s.v.setWidth_eq])
    | i128 => exact (fits_signed_iff rfl).trans (by rw [show WideKind.i128.kind.bits = 128 from rfl, s.v.setWidth_eq])
  have hn := (supports_iff k n).mpr ⟨hone, hmax⟩
  have hview := (viewInRange_iff s).mpr hv
  rw [exec_variableWrite, ← hfits]
  exact ⟨fun hf => writeVariable_fit hn hview hl (Bool.eq_false_of_not_eq_true hf),
    fun hf => ⟨_, writeVariable_ok hn hview hl hf, rfl⟩⟩

/-- Settles O30: each clause breaks one condition of a legal word. -/
theorem illegalWordFaults : Obligations.IllegalWordFaults := by
  unfold Obligations.IllegalWordFaults
  intro w s op kind endTag res0 n res1 hbad
  have hcodes : ∀ code ∈ [0, 1, 2, 3, 4, 5, 6, 7, 9, 10], code ≠ 8 ∧ code < 11 := by decide
  have hnot (i : Instr) : decode w ≠ .ok i := by
    intro hi
    obtain ⟨hres0, hres1, hlow, hhigh, hend, hkind, hwide, hcount⟩ := (decodeOnAllWords w).1.mp ⟨i, hi⟩
    obtain ⟨hne, hlt⟩ := hcodes kind hkind
    obtain h | h | h | h | h | h | h | ⟨ho, hk⟩ | ⟨ho, hn⟩ := hbad
    · exact h hres0
    · exact h hres1
    · omega
    · omega
    · exact hend h
    · exact hne h
    · omega
    · exact hk (hwide ho)
    · exact hn (hcount ho)
  obtain ⟨e, -, hexec⟩ | ⟨i, hi, -⟩ := execute_cases w s
  · exact ⟨hnot, hexec⟩
  · exact absurd hi (hnot i)

/-- Settles O32: the view is the first check after the count, the slice is checked with it, and a scalar command makes one effect
whatever the slice is. -/
theorem rangeFaults : Obligations.RangeFaults := by
  unfold Obligations.RangeFaults
  intro t s fault
  refine ⟨fun hview => ⟨fun k => ?_, fun k n hone hmax => ?_⟩, fun k hslice => ?_, fun a c i s' hi hexec => ?_⟩
  · have hv := (viewInRange_eq_false_iff s).mpr hview
    have hbulk := bulkFault_range (k := k) (.inl hview)
    rw [exec_fixedRead, exec_fixedWrite]
    exact ⟨readFixed_range hv, writeFixed_range hv, exec_bulkRead_fault hbulk, exec_bulkWrite_fault hbulk⟩
  · have hv := (viewInRange_eq_false_iff s).mpr hview
    have hn := (supports_iff k n).mpr ⟨hone, hmax⟩
    rw [exec_variableRead, exec_variableWrite]
    exact ⟨readVariable_range hn hv, writeVariable_range hn hv⟩
  · have hbulk := bulkFault_range (.inr hslice)
    exact ⟨exec_bulkRead_fault hbulk, exec_bulkWrite_fault hbulk⟩
  · refine exec_withSlice_of_sameEffect ?_ hexec
    obtain ⟨k, rfl | rfl⟩ | ⟨k, n, rfl | rfl⟩ := hi
    · simpa [SameEffect] using readFixed_sameEffect_withSlice (k := k) (t := t) (s := s)
    · simpa [SameEffect] using writeFixed_sameEffect_withSlice (k := k) (t := t) (s := s)
    · simpa [SameEffect] using readVariable_sameEffect_withSlice (j := k) (t := t) (n := n) (s := s)
    · simpa [SameEffect] using writeVariable_sameEffect_withSlice (j := k) (t := t) (n := n) (s := s)

/-- Settles O35: the model's overlap test is R87's, and it says that the regions share a byte. -/
theorem overlapFaults : Obligations.OverlapFaults := by
  unfold Obligations.OverlapFaults
  intro k t s L hv hs hl shared fault
  have hshared : shared ↔ 0 < L ∧ s.bufAddr.toNat < s.slAddr.toNat + L ∧ s.slAddr.toNat < s.bufAddr.toNat + L :=
    exists_shared_iff _ _ _
  refine ⟨hshared, fun h => ?_, fun h => ?_⟩
  · have hbulk := bulkFault_overlap hv hs hl (hshared.mp h)
    exact ⟨exec_bulkRead_fault hbulk, exec_bulkWrite_fault hbulk⟩
  · have hpass : s.BulkPasses k := ⟨hv, hs, hl, mt hshared.mpr h⟩
    exact ⟨_, _, exec_bulkRead_ok hpass, exec_bulkWrite_ok hpass, rfl, rfl⟩

/-- Settles O36: a word reports the first of its causes. -/
theorem firstCauseIsReported : Obligations.FirstCauseIsReported := by
  unfold Obligations.FirstCauseIsReported
  intro w s _
  refine ⟨fun c hc hfirst => ?_, execute_of_no_cause⟩
  exact execute_of_isFirstCause ⟨hc, fun d hd => Nat.not_lt.mp fun hlt => hfirst d hlt hd⟩

/-- Settles O37, by the three outcomes of a command: only the first sets `STATUS.FAULT`. -/
theorem faultsAreClean : Obligations.FaultsAreClean := by
  unfold Obligations.FaultsAreClean
  intro i s s' hs hexec hs'
  obtain ⟨c, he⟩ | ⟨-, p, he⟩ | ⟨-, m, -, he⟩ := exec_cases i s <;> obtain rfl := Host.Outcome.next.inj (he.symm.trans hexec)
  · exact ⟨rfl, c.code_bounds.1, c.code_bounds.2, rfl⟩
  · exact absurd hs' (ne_true_of_eq_false hs)
  · exact absurd hs' (ne_true_of_eq_false hs)

/-- Settles O54: along the run, a frozen block only answers reads. -/
theorem frozenRunsChangeNothing : Obligations.FrozenRunsChangeNothing := by
  unfold Obligations.FrozenRunsChangeNothing
  intro accesses s s' hs hall hrun
  obtain ⟨p, rs, rfl⟩ := steps_frozen (s := { s with pending := accesses }) hs hall hrun
  exact ⟨rfl, fun r => by cases r <;> rfl, rfl⟩

/-- Settles O31: 8 and 16 are the largest counts of their types, and the count is checked first. -/
theorem unsupportedCountFaults : Obligations.UnsupportedCountFaults := by
  unfold Obligations.UnsupportedCountFaults
  intro t n s fault
  have hwidth (j : WideKind) (h : n = 0 ∨ j.kind.width < n) :
      exec (variableRead j t n) s = fault ∧ exec (variableWrite j t n) s = fault := by
    have hn := supports_eq_false_iff.mpr h
    rw [exec_variableRead, exec_variableWrite]
    exact ⟨readVariable_width hn, writeVariable_width hn⟩
  refine ⟨fun h => ?_, fun h => ?_⟩
  · obtain ⟨hru, hwu⟩ := hwidth .u64 h
    obtain ⟨hri, hwi⟩ := hwidth .i64 h
    exact ⟨hru, hri, hwu, hwi⟩
  · obtain ⟨hru, hwu⟩ := hwidth .u128 h
    obtain ⟨hri, hwi⟩ := hwidth .i128 h
    exact ⟨hru, hri, hwu, hwi⟩

/-- Settles O33: a count above the length of the view is not 0, so it is a supported one. -/
theorem shortViewFaults : Obligations.ShortViewFaults := by
  unfold Obligations.ShortViewFaults
  intro t s hv fault
  have hview := (viewInRange_iff s).mpr hv
  refine ⟨fun k hl => ?_, fun k n hmax hl => ?_⟩
  · rw [exec_fixedRead, exec_fixedWrite]
    exact ⟨readFixed_short hview hl, writeFixed_short hview hl⟩
  · have hn := (supports_iff k n).mpr ⟨Nat.one_le_of_lt hl, hmax⟩
    rw [exec_variableRead, exec_variableWrite]
    exact ⟨readVariable_short hn hview hl, writeVariable_short hn hview hl⟩

/-- Settles O34: the length is checked after the ranges and before the overlap. -/
theorem lengthFaults : Obligations.LengthFaults := by
  unfold Obligations.LengthFaults
  intro k t s hv hs hl fault
  have hbulk := bulkFault_len hv hs (Nat.ne_iff_lt_or_gt.mpr hl)
  exact ⟨exec_bulkRead_fault hbulk, exec_bulkWrite_fault hbulk⟩

/-- Settles O49. -/
theorem idleStepHoldsState : Obligations.IdleStepHoldsState := by
  unfold Obligations.IdleStepHoldsState
  exact step_idle

end Sys2Proof.Machine
end

