-- ==== Sys2Proof/Proofs/AccessEffect.lean ====
section
/-! What one access of the host can do to the block, said once; the bytes a command can change; and that a command always completes
(spec/40_command_execution.md R151, R153; spec/70_reset_and_hazards.md R343, R348, R351). -/

namespace Sys2Proof.Machine

/-! The register window: a read after a write -/

/-- A register reads back what the host wrote to it, unless it is `STATUS`, and no other register changes (R31, R35). -/
theorem State.readReg_writeReg (s : State) (q r : Reg) (d : Word) :
    (s.writeReg q d).readReg r = if r = q ∧ r ≠ .status then d else s.readReg r := by
  cases q <;> cases r <;> rfl

/-! The host's own memory accesses (R351 L8) -/

section
variable {a : Nat} {s : State}

theorem hostMemRead_ok (h : a < memSize) :
    hostMemRead a s = .next { s with responses := s.responses ++ [.memory (s.mem.read a)] } := if_pos h

theorem hostMemRead_outside (h : memSize ≤ a) : hostMemRead a s = .fault .outsideMemory := if_neg h.not_gt

theorem hostMemWrite_ok (h : a < memSize) (b : Byte) : hostMemWrite a b s = .next { s with mem := s.mem.write a b } := if_pos h

theorem hostMemWrite_outside (h : memSize ≤ a) (b : Byte) : hostMemWrite a b s = .fault .outsideMemory := if_neg h.not_gt

end

/-! Completion: no command and no register write stops the machine (spec/60_exceptions.md R300) -/

theorem exec_completes (i : Instr) (s : State) : ∃ s', exec i s = .next s' := by
  obtain ⟨c, h⟩ | ⟨-, p, h⟩ | ⟨-, m, -, h⟩ := exec_cases i s
  · exact ⟨_, h⟩
  · exact ⟨_, h⟩
  · exact ⟨_, h⟩

theorem execute_completes (w : Word) (s : State) : ∃ s', execute w s = .next s' := by
  obtain ⟨e, -, h⟩ | ⟨i, -, h⟩ := execute_cases w s
  · exact ⟨_, h⟩
  · rw [h]
    exact exec_completes i s

theorem hostWrite_completes (offset : Nat) (d : Word) (s : State) : ∃ s', hostWrite offset d s = .next s' := by
  obtain ⟨-, h⟩ | ⟨-, -, h⟩ | ⟨-, -, h⟩ | ⟨-, r, -, -, h⟩ := hostWrite_cases offset d s
  · exact ⟨_, h⟩
  · exact ⟨_, h⟩
  · rw [h]
    exact execute_completes d _
  · exact ⟨_, h⟩

theorem cutCommand_of_hostWrite {w : Word} {s done : State} (h : hostWrite 0x00 w s = .next done) :
    cutCommand w s = .next
      { s with mem := Memory.mix (Config.resetKeepsOld s.cuts) s.mem done.mem, cuts := s.cuts + 1 }.resetBlock := by
  rw [cutCommand, h]

/-! What an access that completes has done -/

/-- The states an access can leave. -/
inductive AccessEffect (s : State) : HostAccess → State → Prop where
  /-- No register and no byte changes: a read, or a register write that is ignored. -/
  | holds (a : HostAccess) (rs : List Response) : AccessEffect s a { s with responses := rs }
  | reset : AccessEffect s .reset s.resetBlock
  | memWrite (addr : Nat) (b : Byte) : AccessEffect s (.memWrite addr b) { s with mem := s.mem.write addr b }
  | cut (w : Word) (s' : State) (h : cutCommand w s = .next s') : AccessEffect s (.cutCommand w) s'
  | runs (w : Word) (s' : State) (hs : s.status.fault = false) (h : execute w { s with cmd := w } = .next s') :
      AccessEffect s (.regWrite .word 0x00 w) s'
  | stores (r : Reg) (d : Word) (hs : s.status.fault = false) : AccessEffect s (.regWrite .word r.offset d) (s.writeReg r d)

section
variable {s s' : State}

theorem hostWrite_effect {offset : Nat} {d : Word} (h : hostWrite offset d s = .next s') :
    AccessEffect s (.regWrite .word offset d) s' := by
  obtain ⟨-, he⟩ | ⟨-, -, he⟩ | ⟨hs, hr, he⟩ | ⟨hs, r, -, hr, he⟩ := hostWrite_cases offset d s <;> rw [he] at h
  · obtain rfl := Host.Outcome.next.inj h
    exact .holds _ s.responses
  · obtain rfl := Host.Outcome.next.inj h
    exact .holds _ s.responses
  · obtain rfl := (regAt_eq_some_iff offset .cmd).mp hr
    exact .runs d s' hs h
  · obtain rfl := (regAt_eq_some_iff offset r).mp hr
    obtain rfl := Host.Outcome.next.inj h
    exact .stores r d hs

theorem serve_effect {a : HostAccess} (h : serve a s = .next s') : AccessEffect s a s' := by
  cases a with
  | regRead size offset =>
    simp only [serve, hostRead] at h
    split at h
    · obtain rfl := Host.Outcome.next.inj h
      exact .holds _ _
    · cases h
  | regWrite size offset d =>
    simp only [serve] at h
    split at h
    · next hport =>
      obtain ⟨rfl, -⟩ := (portTakes_iff size offset).mp hport
      exact hostWrite_effect h
    · cases h
  | reset =>
    obtain rfl := Host.Outcome.next.inj h
    exact .reset
  | memRead addr =>
    simp only [serve, hostMemRead] at h
    split at h
    · obtain rfl := Host.Outcome.next.inj h
      exact .holds _ _
    · cases h
  | memWrite addr b =>
    simp only [serve, hostMemWrite] at h
    split at h
    · obtain rfl := Host.Outcome.next.inj h
      exact .memWrite addr b
    · cases h
  | cutCommand w => exact .cut w s' h

end

/-! The bytes a command can change -/

/-- Address `a` lies where `i` writes: the buffer view of a write command, the value slice of a `read_into`. -/
def InDestination (i : Instr) (s : State) (a : Nat) : Prop :=
  ((∃ k t, i = fixedWrite k t ∨ i = bulkWrite k t) ∨ (∃ k t n, i = variableWrite k t n)) ∧
      s.bufAddr.toNat ≤ a ∧ a < s.bufAddr.toNat + s.bufLen.toNat ∨
    ∃ k t, i = bulkRead k t ∧ s.slAddr.toNat ≤ a ∧ a < s.slAddr.toNat + s.slCount.toNat * k.width

theorem Memory.region_of_writeBytes_ne {m : Memory} {x a : Nat} {bytes : List Byte}
    (h : (m.writeBytes x bytes).read a ≠ m.read a) : x ≤ a ∧ a < x + bytes.length := by
  by_contra hout
  exact h (Memory.read_writeBytes_outside (by omega))

theorem region_of_convert_ne {w src dst count a : Nat} {so d : Order} {m : Memory}
    (h : (convert w so d src dst count m).read a ≠ m.read a) : dst ≤ a ∧ a < dst + w * count := by
  by_contra hout
  exact h (read_convert_outside (by omega))

section
variable {s s' : State} {a : Nat}

theorem writeFixed_changes_view {k : Kind} {t : Tag} (h : writeFixed k t s = .next s') (hne : s'.mem.read a ≠ s.mem.read a) :
    s.bufAddr.toNat ≤ a ∧ a < s.bufAddr.toNat + s.bufLen.toNat := by
  obtain ⟨-, he⟩ | ⟨-, -, he⟩ | ⟨-, hlen, he⟩ := writeFixed_cases h <;> obtain rfl := Host.Outcome.next.inj he
  · exact absurd rfl hne
  · exact absurd rfl hne
  · have hregion := Memory.region_of_writeBytes_ne hne
    rw [dis_length] at hregion
    omega

theorem writeVariable_changes_view {j : WideKind} {t : Tag} {n : Nat} (h : writeVariable j t n s = .next s')
    (hne : s'.mem.read a ≠ s.mem.read a) : s.bufAddr.toNat ≤ a ∧ a < s.bufAddr.toNat + s.bufLen.toNat := by
  obtain ⟨-, he⟩ | ⟨-, -, he⟩ | ⟨-, -, -, he⟩ | ⟨-, -, -, -, he⟩ | ⟨-, -, hlen, -, he⟩ := writeVariable_cases h <;>
    obtain rfl := Host.Outcome.next.inj he
  · exact absurd rfl hne
  · exact absurd rfl hne
  · exact absurd rfl hne
  · exact absurd rfl hne
  · have hregion := Memory.region_of_writeBytes_ne hne
    rw [dis_length] at hregion
    omega

theorem readBulk_changes_slice {k : Kind} {t : Tag} (h : readBulk k t s = .next s') (hne : s'.mem.read a ≠ s.mem.read a) :
    s.slAddr.toNat ≤ a ∧ a < s.slAddr.toNat + s.slCount.toNat * k.width := by
  obtain ⟨c, -, he⟩ | ⟨-, he⟩ := readBulk_cases h <;> obtain rfl := Host.Outcome.next.inj he
  · exact absurd rfl hne
  · rw [Nat.mul_comm]
    exact region_of_convert_ne hne

/-- A bulk write that gets to its loop has a slice as long as its view. -/
theorem bufLen_of_bulkFault_none {k : Kind} (h : bulkFault k s = none) : s.bufLen.toNat = k.width * s.slCount.toNat := by
  obtain ⟨-, hc⟩ | ⟨-, -, -, hc⟩ | ⟨-, -, -, -, hc⟩ | ⟨-, -, hlen, -, -⟩ := bulkFault_cases k s
  · cases h.symm.trans hc
  · cases h.symm.trans hc
  · cases h.symm.trans hc
  · rw [hlen, State.sliceBytes, Nat.mul_comm]

theorem writeBulk_changes_view {k : Kind} {t : Tag} (h : writeBulk k t s = .next s') (hne : s'.mem.read a ≠ s.mem.read a) :
    s.bufAddr.toNat ≤ a ∧ a < s.bufAddr.toNat + s.bufLen.toNat := by
  obtain ⟨c, -, he⟩ | ⟨hnone, he⟩ := writeBulk_cases h <;> obtain rfl := Host.Outcome.next.inj he
  · exact absurd rfl hne
  · rw [bufLen_of_bulkFault_none hnone]
    exact region_of_convert_ne hne

theorem exec_changes_destination {i : Instr} (h : exec i s = .next s') (hne : s'.mem.read a ≠ s.mem.read a) :
    InDestination i s a := by
  have hread (hi : ScalarRead i) : InDestination i s a := by
    obtain ⟨-, -, -, -, -, -, -, -, -, hmem, -⟩ := operandRegistersKept i s s' h
    exact absurd (by rw [hmem hi]) hne
  obtain ⟨k, t, rfl⟩ | ⟨k, t, rfl⟩ | ⟨k, t, n, rfl⟩ | ⟨k, t, n, rfl⟩ | ⟨k, t, rfl⟩ | ⟨k, t, rfl⟩ := Instr.by_operation i
  · exact hread (.inl ⟨k, t, rfl⟩)
  · rw [exec_fixedWrite] at h
    exact .inl ⟨.inl ⟨k, t, .inl rfl⟩, writeFixed_changes_view h hne⟩
  · exact hread (.inr ⟨k, t, n, rfl⟩)
  · rw [exec_variableWrite] at h
    exact .inl ⟨.inr ⟨k, t, n, rfl⟩, writeVariable_changes_view h hne⟩
  · rw [exec_bulkRead] at h
    exact .inr ⟨k, t, rfl, readBulk_changes_slice h hne⟩
  · rw [exec_bulkWrite] at h
    exact .inl ⟨.inl ⟨k, t, .inr rfl⟩, writeBulk_changes_view h hne⟩

/-- An illegal word changes no byte, so a word that changes one is that of a command. -/
theorem execute_changes_destination {w : Word} (h : execute w s = .next s') (hne : s'.mem.read a ≠ s.mem.read a) :
    ∃ i, decode w = .ok i ∧ InDestination i s a := by
  obtain ⟨e, -, he⟩ | ⟨i, hi, he⟩ := execute_cases w s <;> rw [he] at h
  · obtain rfl := Host.Outcome.next.inj h
    exact absurd rfl hne
  · exact ⟨i, hi, exec_changes_destination h hne⟩

/-! The descriptors (R348) -/

/-- A command word, legal or not, changes no descriptor. -/
theorem execute_keeps_descriptor {w : Word} {r : Reg} (hr : r = .bufAddr ∨ r = .bufLen ∨ r = .slAddr ∨ r = .slCount)
    (h : execute w s = .next s') : s'.readReg r = s.readReg r := by
  have hkept : s'.bufAddr = s.bufAddr ∧ s'.bufLen = s.bufLen ∧ s'.slAddr = s.slAddr ∧ s'.slCount = s.slCount := by
    obtain ⟨e, -, he⟩ | ⟨i, -, he⟩ := execute_cases w s <;> rw [he] at h
    · obtain rfl := Host.Outcome.next.inj h
      exact ⟨rfl, rfl, rfl, rfl⟩
    · obtain ⟨haddr, hlen, hslAddr, hslCount, -⟩ := operandRegistersKept i s s' h
      exact ⟨haddr, hlen, hslAddr, hslCount⟩
  obtain ⟨haddr, hlen, hslAddr, hslCount⟩ := hkept
  obtain rfl | rfl | rfl | rfl := hr
  · exact haddr
  · exact hlen
  · exact hslAddr
  · exact hslCount

end

/-! A read leaves in `V` the pattern it assembled (R349) -/

/-- Extension keeps the low bits: those of the pattern. -/
theorem toNat_extend_mod (signed : Bool) {p k : Nat} (hp : p < 2 ^ k) (hk : k ≤ 128) :
    (extend signed p k).toNat % 2 ^ k = p := by
  cases signed with
  | false => rw [toNat_extend_unsigned hp hk, Nat.mod_eq_of_lt hp]
  | true =>
    rw [extend, if_pos rfl, sext128, BitVec.toNat_ofNat, Nat.mod_mod_of_dvd _ (pow_dvd_pow 2 hk)]
    split
    · exact Nat.mod_eq_of_lt hp
    · have hones : p + 2 ^ 128 - 2 ^ k = p + (2 ^ (128 - k) - 1) * 2 ^ k := by
        rw [Nat.sub_mul, one_mul, pow_sub_mul_pow 2 hk, Nat.add_sub_assoc (Nat.pow_le_pow_right (by decide) hk)]
      rw [hones, Nat.add_mul_mod_self_right, Nat.mod_eq_of_lt hp]

theorem State.operand_setV_extend (s : State) (signed : Bool) {p t : Nat} (hp : p < 2 ^ t) (ht : t ≤ 128) :
    (s.setV (extend signed p t)).operand t = p := by
  rw [State.operand, State.v_setV, toNat_extend_mod signed hp ht]

end Sys2Proof.Machine
end

