-- ==== Sys2Proof/Proofs/ResetAndHazards.lean ====
section
/-! The obligations of spec/70_reset_and_hazards.md. -/

namespace Sys2Proof.Machine

/-- Settles O14: the write stores the pattern the read assembled, in the other order. -/
theorem readThenWriteSwapsField : Obligations.ReadThenWriteSwapsField := by
  unfold Obligations.ReadThenWriteSwapsField
  intro k s hv hl
  have hview : s.viewInRange = true := (viewInRange_iff s).mpr hv
  let p := patternAt .big s.mem s.bufAddr.toNat k.width
  let s₁ := s.setV (extend k.signed p k.bits)
  have hread : exec (fixedRead k .be) s = .next s₁ := (exec_fixedRead k .be s).trans (readFixed_ok hview hl)
  have hoperand : s₁.operand k.bits = p := s.operand_setV_extend k.signed (patternAt_lt _ _ _ _) k.bits_le
  obtain ⟨-, -, hwrite⟩ := fixedWriteResult k .le s₁
  obtain ⟨s₂, hexec, -, hinside, houtside⟩ := hwrite hv hl
  refine ⟨s₁, s₂, hread, hexec, fun i hi => ?_, houtside⟩
  calc s₂.mem.read (s.bufAddr.toNat + i)
    _ = encodedByte .little k.width (s₁.operand k.bits) i := hinside i hi
    _ = encodedByte .big k.width p (k.width - 1 - i) := by rw [hoperand, encodedByte_of_ne (o' := .big) (by decide) p hi]
    _ = s.mem.read (s.bufAddr.toNat + (k.width - 1 - i)) := encodedByte_patternAt .big s.mem _ (by omega)

/-- Settles O47: the write would have completed, and the cut mixes its memory with the one before. -/
theorem cutCommandLeavesOldOrNew : Obligations.CutCommandLeavesOldOrNew := by
  unfold Obligations.CutCommandLeavesOldOrNew
  intro s w rest hp
  obtain ⟨done, hdone⟩ := hostWrite_completes 0x00 w { s with pending := rest }
  refine ⟨done, _, hdone, (step_serves hp).trans (cutCommand_of_hostWrite hdone), State.readReg_resetBlock _, rfl, fun a => ?_⟩
  rw [State.resetBlock_mem, Memory.read_mix]
  split
  · exact .inl rfl
  · exact .inr rfl

/-- Settles O48: both accesses complete inside the address space and fault outside it. -/
theorem hostMemoryAccess : Obligations.HostMemoryAccess := by
  unfold Obligations.HostMemoryAccess
  intro s a b rest
  refine ⟨fun ha hp => ?_, fun ha hp => (step_serves hp).trans (hostMemRead_ok ha), fun ha hp => ?_⟩
  · exact ⟨_, (step_serves hp).trans (hostMemWrite_ok ha b), rfl, Memory.read_write_same s.mem a b,
      fun x hx => Memory.read_write_other hx⟩
  · obtain hp | hp := hp
    · exact (step_serves hp).trans (hostMemWrite_outside ha b)
    · exact (step_serves hp).trans (hostMemRead_outside ha)

/-- Settles O55, along the effects an access can have: of those that remain only a command that runs changes a byte. -/
theorem memoryChangesOnlyByWriteCommands : Obligations.MemoryChangesOnlyByWriteCommands := by
  unfold Obligations.MemoryChangesOnlyByWriteCommands
  intro s s' x rest a hp hmemWrite hcut hstep hne
  rw [step_serves hp] at hstep
  cases serve_effect hstep with
  | holds rs => exact absurd rfl hne
  | reset => exact absurd rfl hne
  | memWrite addr b => exact absurd rfl (hmemWrite addr b)
  | cut w _ h => exact absurd rfl (hcut w)
  | runs w _ hs h =>
    obtain ⟨i, hi, hdest⟩ := execute_changes_destination h hne
    exact ⟨hs, w, i, rfl, hi, hdest⟩
  | stores r d hs => exact absurd (by rw [State.writeReg_mem]) hne

/-- Settles O56, along the effects an access can have: short of a reset only a store into the register itself changes it. -/
theorem descriptorsChangeOnlyByTheHost : Obligations.DescriptorsChangeOnlyByTheHost := by
  unfold Obligations.DescriptorsChangeOnlyByTheHost
  intro s s' x rest r hr hp hstep hne
  rw [step_serves hp] at hstep
  let s₀ := { s with pending := rest }
  have hkept : s₀.readReg r = s.readReg r := by cases r <;> rfl
  rw [← hkept] at hne
  cases serve_effect hstep with
  | holds rs => exact absurd (by cases r <;> rfl) hne
  | reset => exact .inl rfl
  | memWrite addr b => exact absurd (by cases r <;> rfl) hne
  | cut w _ h => exact .inr (.inl ⟨w, rfl⟩)
  | runs w _ hs h =>
    have hcmd : State.readReg { s₀ with cmd := w } r = s₀.readReg r := by obtain rfl | rfl | rfl | rfl := hr <;> rfl
    exact absurd ((execute_keeps_descriptor hr h).trans hcmd) hne
  | stores q d hs =>
    have hvalue := s₀.readReg_writeReg q r d
    by_cases hq : r = q ∧ r ≠ .status
    · rw [if_pos hq] at hvalue
      exact .inr (.inr ⟨hs, by rw [hvalue, hq.1]⟩)
    · rw [if_neg hq] at hvalue
      exact absurd hvalue hne

end Sys2Proof.Machine
end

section
/-! The written-out words of spec/30_encoding.md R119. -/

namespace Sys2Proof

/-- Settles O1: each word is the word of a well-formed command, so it decodes to that command and to no other. -/
theorem decodesWordsOfEachOperation : Obligations.DecodesWordsOfEachOperation := by
  unfold Obligations.DecodesWordsOfEachOperation
  exact ⟨decodeOfEncode (.readU16 .be) rfl, decodeOfEncode (.writeU16 .le) rfl, decodeOfEncode (.readInt .be 2) rfl,
    decodeOfEncode (.writeUint .be 2) rfl, decodeOfEncode (.readI32Into .le) rfl, decodeOfEncode (.writeF32Into .ne) rfl⟩

end Sys2Proof
end
